-- ==== Sys2Proof/Word.lean ====
section
/-! DEFINITION. The bit-vector and array shapes of the engine (spec/00_scope.md R7: nothing is signed, bit 0 is
the least significant; spec/10_state.md R21, R25, R26). -/

namespace Sys2Proof

/-- A byte (R7). -/
abbrev Byte := BitVec 8

/-- A 32-bit word of the running state and of all transform arithmetic (R5 `WORD`, R80). -/
abbrev Word := BitVec 32

/-- A 16-bit command word `cmd[15:0]` (R5 `CMDW`, R63). -/
abbrev CmdWord := BitVec 16

/-- The 64-bit value of a bit counter (R5 `CNT`, R21). -/
abbrev Count := BitVec 64

/-- A 64-byte block or pad; index 0 is the first byte (R5 `BLOCK`, R21, R26). -/
abbrev Block := Vector Byte 64

/-- A 32-byte digest, MAC or expected value; index 0 is the first byte (R5 `DIGEST`, R25, R28). -/
abbrev Digest := Vector Byte 32

/-- The eight words of a running state (R5 `NSTATE`, R21). -/
abbrev HashWords := Vector Word 8

end Sys2Proof
end

