-- ==== Sys2Proof/Syntax.lean ====
section
/-! DEFINITION. The twelve commands of the opcode map (spec/30_encoding.md R65, spec/opcode_table.json). A format D
command carries its data byte `b = cmd[7:0]` (R66); a format N command has no operand (R64). -/

namespace Sys2Proof

/-- One constructor per row of spec/opcode_table.json. -/
inductive Instr where
  /-- HINIT: create or re-create the Hash Engine (R104). -/
  | hinit
  /-- HBYTE b: absorb one message byte into `H.ctx` (R105). -/
  | hbyte (b : Byte)
  /-- HFINAL: finalize `H.ctx` and publish the digest (R106). -/
  | hfinal
  /-- HMATCH: as HFINAL, and compare with `EXP` (R107). -/
  | hmatch
  /-- XBYTE b: shift one byte into `EXP` (R108). -/
  | xbyte (b : Byte)
  /-- KBEGIN: start a new key (R117). -/
  | kbegin
  /-- KBYTE b: one key byte (R118). -/
  | kbyte (b : Byte)
  /-- KEND: end of key (R119). -/
  | kend
  /-- MBYTE b: one message byte into the inner context (R120). -/
  | mbyte (b : Byte)
  /-- MFINAL: compute the MAC (R121). -/
  | mfinal
  /-- MMATCH: as MFINAL, and compare with `EXP` (R122). -/
  | mmatch
  /-- MRESET: drop the message, keep the key (R123). -/
  | mreset
  deriving DecidableEq, Repr

end Sys2Proof
end

