-- ==== Sys2Proof/WellFormed.lean ====
section
/-! DEFINITION. Which command words are legal (spec/30_encoding.md R65, R67), by the three checks of R67, and the
opcode map of R65 as rows of match and mask. Written apart from the decoder, so that the two can be held against
each other. An `Instr` itself has no ill-formed value: its only operand is a byte and "All 256 values are legal"
(R66). -/

namespace Sys2Proof.WellFormed

/-- R67 (a), negated: the opcode field is one of 0x1 to 0xC. -/
def opcodeAssigned (w : CmdWord) : Bool := 0x1000 ≤ w && w < 0xD000

/-- R67 (b), negated: the `rsv` field `cmd[11:8]` is zero. -/
def rsvClear (w : CmdWord) : Bool := w &&& 0x0F00 == 0

/-- The opcodes of format D: 0x2, 0x5, 0x7, 0x9 (R69). -/
def hasDataByte (w : CmdWord) : Bool :=
  w &&& 0xF000 == 0x2000 || w &&& 0xF000 == 0x5000 || w &&& 0xF000 == 0x7000 || w &&& 0xF000 == 0x9000

/-- R67 (c), negated: a word that is not of format D has a zero data field. -/
def dataClear (w : CmdWord) : Bool := hasDataByte w || w &&& 0x00FF == 0

/-- A word is legal when none of R67's three conditions holds. -/
def wordLegal (w : CmdWord) : Bool := opcodeAssigned w && rsvClear w && dataClear w

/-- One row of the opcode map: a word `w` selects the row when `w AND mask = bits` (R65; `bits` is its `match`). -/
structure Row where
  /-- The mnemonic. -/
  mnemonic : String
  /-- The row's `match`. -/
  bits : CmdWord
  /-- The row's `mask`. -/
  mask : CmdWord
  deriving DecidableEq, Repr

/-- The word selects the row (R65). -/
def Row.selects (r : Row) (w : CmdWord) : Bool := w &&& r.mask == r.bits

/-- The opcode map of R65, in the order of spec/opcode_table.json. -/
def opcodeMap : List Row :=
  [⟨"HINIT", 0x1000, 0xFFFF⟩, ⟨"HBYTE", 0x2000, 0xFF00⟩, ⟨"HFINAL", 0x3000, 0xFFFF⟩, ⟨"HMATCH", 0x4000, 0xFFFF⟩] ++
  [⟨"XBYTE", 0x5000, 0xFF00⟩, ⟨"KBEGIN", 0x6000, 0xFFFF⟩, ⟨"KBYTE", 0x7000, 0xFF00⟩, ⟨"KEND", 0x8000, 0xFFFF⟩] ++
  [⟨"MBYTE", 0x9000, 0xFF00⟩, ⟨"MFINAL", 0xA000, 0xFFFF⟩, ⟨"MMATCH", 0xB000, 0xFFFF⟩, ⟨"MRESET", 0xC000, 0xFFFF⟩]

end Sys2Proof.WellFormed
end

