-- ==== Sys2Proof/Decode.lean ====
section
/-! DEFINITION. Decoding a command word (spec/30_encoding.md R69), total, rejecting by name; and after it the encoder,
written from the field layout of R64. -/

namespace Sys2Proof

/-- Why a word is illegal: the three conditions of R67. -/
inductive DecodeError where
  /-- R67 (a): `cmd[15:12]` is 0x0, 0xD, 0xE or 0xF. -/
  | reservedOpcode
  /-- R67 (b): `cmd[11:8]` is not zero. -/
  | reservedField
  /-- R67 (c): a format N opcode with a non-zero data field. -/
  | dataField
  deriving DecidableEq, Repr

/-- The result of decoding: "`word16 -> Cmd + Illegal`" (R69). -/
inductive Decoded where
  | cmd (i : Instr)
  | illegal (why : DecodeError)
  deriving DecidableEq, Repr

/-- `op = cmd[15:12]` (R64). -/
def opField (w : CmdWord) : BitVec 4 := w.extractLsb' 12 4

/-- `rsv = cmd[11:8]` (R64). -/
def rsvField (w : CmdWord) : BitVec 4 := w.extractLsb' 8 4

/-- `data = cmd[7:0]`, the byte operand of format D as it stands (R64, R66). -/
def dataField (w : CmdWord) : Byte := w.extractLsb' 0 8

/-- A format N word: the data field must be zero (R64, R67 (c)). -/
def formatN (w : CmdWord) (i : Instr) : Decoded := if dataField w = 0 then .cmd i else .illegal .dataField

/-- `decode` of R69: the `rsv` check, then the opcode, then the data check of format N. -/
def decode (w : CmdWord) : Decoded :=
  if rsvField w ≠ 0 then .illegal .reservedField
  else match (opField w).toNat with
    | 0x1 => formatN w .hinit
    | 0x2 => .cmd (.hbyte (dataField w))
    | 0x3 => formatN w .hfinal
    | 0x4 => formatN w .hmatch
    | 0x5 => .cmd (.xbyte (dataField w))
    | 0x6 => formatN w .kbegin
    | 0x7 => .cmd (.kbyte (dataField w))
    | 0x8 => formatN w .kend
    | 0x9 => .cmd (.mbyte (dataField w))
    | 0xA => formatN w .mfinal
    | 0xB => formatN w .mmatch
    | 0xC => formatN w .mreset
    | _ => .illegal .reservedOpcode

/-- The word of the host's numbered bits: the opcode table gives every row its 16 bits, bit 0 least significant, so
the word is the number itself; a number of more than 16 bits is no command word (R63). -/
def decodeTableWord (nbits w : Nat) : Option Instr :=
  if w % 2 ^ nbits < 2 ^ 16 then
    match decode (BitVec.ofNat 16 (w % 2 ^ nbits)) with
    | .cmd i => some i
    | .illegal _ => none
  else none

/-- A word from its fields: `op ‖ rsv = 0 ‖ data` (R64). -/
def wordOf (op : BitVec 4) (data : Byte) : CmdWord := op ++ (0 : BitVec 4) ++ data

/-- The command word of a command (R65). A format N command has a zero data field. -/
def encode : Instr → CmdWord
  | .hinit => wordOf 0x1 0
  | .hbyte b => wordOf 0x2 b
  | .hfinal => wordOf 0x3 0
  | .hmatch => wordOf 0x4 0
  | .xbyte b => wordOf 0x5 b
  | .kbegin => wordOf 0x6 0
  | .kbyte b => wordOf 0x7 b
  | .kend => wordOf 0x8 0
  | .mbyte b => wordOf 0x9 b
  | .mfinal => wordOf 0xA 0
  | .mmatch => wordOf 0xB 0
  | .mreset => wordOf 0xC 0

end Sys2Proof
end

