-- ==== Sys2Proof/Machine/Operands.lean ====
section
/-! DEFINITION. Byte order and the edits of the byte arrays: word assembly and serialisation (spec/00_scope.md R8,
spec/20_memory.md R42, R43), the port byte order (R44), the buffer writes of Absorb and Finalize (R47) and the pad
bytes (spec/42_hmac_commands.md R118, R119). The data byte of a command is taken from its word in Sys2Proof/Decode.lean
(R66). -/

namespace Sys2Proof.Machine

/-- `BE32(b0,b1,b2,b3)`: four bytes to a word, first byte most significant (R8). -/
def be32 (b0 b1 b2 b3 : Byte) : Word := b0 ++ b1 ++ b2 ++ b3

/-- `BYTES32(w)`, the inverse of `be32` (R8). -/
def bytes32 (w : Word) : Vector Byte 4 :=
  #v[w.extractLsb' 24 8, w.extractLsb' 16 8, w.extractLsb' 8 8, w.extractLsb' 0 8]

/-- `BYTES64(v)`: the 8 bytes of a 64-bit value, most significant first (R8). -/
def bytes64 (v : Count) : Vector Byte 8 :=
  #v[v.extractLsb' 56 8, v.extractLsb' 48 8, v.extractLsb' 40 8, v.extractLsb' 32 8,
     v.extractLsb' 24 8, v.extractLsb' 16 8, v.extractLsb' 8 8, v.extractLsb' 0 8]

/-- The digest bytes of eight state words: `D[4i..4i+3] = BYTES32(state[i])` (R43). -/
def serialise (s : HashWords) : Digest := Vector.ofFn fun i => (bytes32 s[i.val / 4])[i.val % 4]

/-- A digest register on a 256-bit port: byte 0 in the most significant byte (R44). -/
def wire256 (d : Digest) : BitVec 256 := BitVec.ofNat 256 (d.toList.foldl (fun n b => 256 * n + b.toNat) 0)

/-- `buffer[n] <- b` for an index inside the block (R47). -/
def putByte (buf : Block) (n : Nat) (b : Byte) : Block := buf.setIfInBounds n b

/-- `for i in lo .. hi-1: buffer[i] <- 0x00` (the zero fills of R102). -/
def zeroRange (buf : Block) (lo hi : Nat) : Block :=
  Vector.ofFn fun i => if lo ≤ i.val ∧ i.val < hi then 0 else buf[i]

/-- `buffer[56..63] <- BYTES64(L)` (R43, R102). -/
def putLength (buf : Block) (len : Count) : Block :=
  Vector.ofFn fun i => if h : 56 ≤ i.val then (bytes64 len)[i.val - 56] else buf[i]

/-- The pad of a block-sized key: `key'[i] XOR p` for all 64 bytes (R26). -/
def xorPad (key : Block) (p : Byte) : Block := Vector.ofFn fun i => key[i] ^^^ p

/-- The pad of a hashed key: `d[i] XOR p` for i in 0..31 and `p` for i in 32..63 (R119). -/
def digestPad (d : Digest) (p : Byte) : Block := Vector.ofFn fun i => if h : i.val < 32 then d[i.val] ^^^ p else p

/-- The pad of the all-zero key (R117). -/
def zeroKeyPad (p : Byte) : Block := Vector.replicate 64 p

/-- One step of the shift register: `EXP[i] <- EXP[i+1]` for i in 0..30, `EXP[31] <- b` (R108). -/
def shiftIn (e : Digest) (b : Byte) : Digest := Vector.ofFn fun i => if h : i.val < 31 then e[i.val + 1] else b

end Sys2Proof.Machine
end

