-- ==== Sys2Proof/Machine/Context.lean ====
section
/-! DEFINITION. The hash context (HashState) and its counter (spec/10_state.md R21, R22, R24; spec/40_compress.md R94;
spec/41_hash_commands.md R101). -/

namespace Sys2Proof.Machine

/-- A context: the document's HashState (R21). -/
structure Context where
  /-- `state[0..7]`, the running digest. -/
  state : HashWords
  /-- `total_hi`, bits 63:32 of the bit counter. -/
  totalHi : Word
  /-- `total_lo`, bits 31:0 of the bit counter. -/
  totalLo : Word
  /-- `buffer[0..63]`, the block accumulator. -/
  buffer : Block
  deriving DecidableEq, Repr

/-- `Created()`: the initial constants, a zero counter, a zero buffer (R24). -/
def created : Context := { state := iv, totalHi := 0, totalLo := 0, buffer := Vector.replicate 64 0 }

/-- `total = total_hi * 2^32 + total_lo`, read as one 64-bit value (R21). -/
def total (c : Context) : Count := c.totalHi ++ c.totalLo

/-- The 64-bit value written back to the two halves (R21, R94). -/
def setTotal (c : Context) (v : Count) : Context :=
  { c with totalHi := v.extractLsb' 32 32, totalLo := v.extractLsb' 0 32 }

/-- `fill(ctx) = (total / 8) mod 64`, in 0..63 (R22). -/
def fill (c : Context) : Nat := (total c).toNat / 8 % 64

/-- `CanAbsorb(ctx)` is `ctx.total != 2^64 - 8` (R101). -/
def canAbsorb (c : Context) : Bool := total c != maxTotal

end Sys2Proof.Machine
end

