-- ==== Sys2Proof/Machine/State.lean ====
section
/-! DEFINITION. The engine state `(H, M, EXP, FCODE, FCMD)` of spec/10_state.md R20, plain data, with the model's own
input list beside it, and the state after reset (R35). -/

namespace Sys2Proof.Machine

/-- The Hash Engine unit `H` (R25). -/
structure HashUnit where
  /-- `H.ctx`, the one standalone hash context. -/
  ctx : Context
  /-- `H.HUSED`: the context has been finalized. -/
  hused : Bool
  /-- `H.HDV`: `HD` holds the digest of the last HFINAL or HMATCH and no HINIT has come since. -/
  hdv : Bool
  /-- `H.HEQ`: the last finalizing command was HMATCH and its digest equalled `EXP`. -/
  heq : Bool
  /-- `H.HD[0..31]`, the digest output register. -/
  hd : Digest
  deriving DecidableEq, Repr

/-- `M.MPHASE` (R26). Its two-bit codes 0, 1, 2 are `phaseBits`; "the value 3 is never taken" (DEDUCED: so it is no
value of the type; log entry 6). -/
inductive Phase where
  /-- No key since reset. -/
  | idle
  /-- Between KBEGIN and KEND. -/
  | keyload
  /-- Pads final, inner context primed or absorbing a message. -/
  | ready
  deriving DecidableEq, Repr

/-- The HMAC Engine unit `M` (R26). -/
structure HmacUnit where
  /-- `M.I`, the inner context; during key load it hashes the key. -/
  inner : Context
  /-- `M.O`, the outer context. -/
  outer : Context
  /-- `M.IK[0..63]`, `innerKey`. -/
  ik : Block
  /-- `M.OK[0..63]`, `outerKey`. -/
  ok : Block
  /-- `M.MPHASE`. -/
  mphase : Phase
  /-- `M.MDV`: `MD` holds the MAC of the last MFINAL or MMATCH and no KBEGIN has come since. -/
  mdv : Bool
  /-- `M.MEQ`: the last finalizing command was MMATCH and its MAC equalled `EXP`. -/
  meq : Bool
  /-- `M.MD[0..31]`, the MAC output register. -/
  md : Digest
  deriving DecidableEq, Repr

/-- `FCODE` (R29, R131). Its three-bit codes 0 to 4 are `faultBits`; "5, 6, 7 unused, never written" (DEDUCED: so
they are no values of the type; log entry 6). -/
inductive FaultCode where
  /-- 0: no fault since reset. -/
  | none
  /-- 1: the word was illegal (R135). -/
  | illegal
  /-- 2: HBYTE, HFINAL or HMATCH on a used context (R136). -/
  | hUsed
  /-- 3: an M-group command in the wrong phase (R137). -/
  | mSeq
  /-- 4: the counter would overflow (R138). -/
  | cntOvf
  deriving DecidableEq, Repr

/-- The input pins of one clock cycle as sampled at the command port (70_reset_and_hazards.md R149), with the
handshake output `cmd_ready_o` of that cycle. When `cmd_ready_o` is high is `T_CMD`, an open parameter no rule
depends on, so it is arbitrary data here (log entry 2). -/
structure PortCycle where
  /-- `rst_i`. -/
  rst : Bool
  /-- `cmd_valid_i`. -/
  valid : Bool
  /-- `cmd_ready_o` in this cycle. -/
  ready : Bool
  /-- `cmd_i`. -/
  cmd : CmdWord
  deriving DecidableEq, Repr

/-- The engine state (R20) and the input still to come. -/
structure State where
  /-- `H`, the Hash Engine unit. -/
  h : HashUnit
  /-- `M`, the HMAC Engine unit. -/
  m : HmacUnit
  /-- `EXP[0..31]`, the expected-value shift register (R28). -/
  exp : Digest
  /-- `FCODE` (R29). -/
  fcode : FaultCode
  /-- `FCMD`, the command word that raised the fault (R29). -/
  fcmd : CmdWord
  /-- DESIGN CHOICE, the model's own field (log entry 1): the port cycles still to come, oldest first. "the command
  stream is an input" (R20). -/
  port : List PortCycle
  deriving DecidableEq, Repr

/-- The reasons a step can stop with a fault: none. An engine fault is a next state (60_exceptions.md R132) and "every
accepted command completes" (93_implementation_defined.md, Part 1), so this closed inductive has no constructor. -/
inductive Fault where
  deriving DecidableEq, Repr

/-- The reasons a step can be refused. -/
inductive Refusal where
  /-- Raised by an arm of exec that has no meaning yet; safe. No arm raises it: every command has its meaning. -/
  | notModelled (mnemonic : String)
  deriving DecidableEq, Repr

/-- The engine right after reset (R35, 70_reset_and_hazards.md R148): `H` created and not used, `M` in IDLE, everything
else zero. The model's input list is empty (DESIGN CHOICE, log entry 1). -/
def State.reset : State :=
  { h := { ctx := created, hused := false, hdv := false, heq := false, hd := Vector.replicate 32 0 }
    m := { inner := created, outer := created, ik := Vector.replicate 64 0, ok := Vector.replicate 64 0,
           mphase := .idle, mdv := false, meq := false, md := Vector.replicate 32 0 }
    exp := Vector.replicate 32 0
    fcode := .none
    fcmd := 0
    port := [] }

end Sys2Proof.Machine
end

