-- ==== Sys2Proof/Machine/Flags.lean ====
section
/-! DEFINITION. The flag computation, the status register and the output ports: all views of State, none of them state
(spec/10_state.md R30, R34; spec/60_exceptions.md R131). Reading a port has no effect (spec/20_memory.md R48). -/

namespace Sys2Proof.Machine

/-- The comparison of `matches`: all 32 bytes take part, one flag out (R107, R122). -/
def digestEq (d e : Digest) : Bool := (List.finRange 32).all fun i => d[i] == e[i]

/-- The two-bit code of `MPHASE` (R26, R30). -/
def phaseBits : Phase → BitVec 2
  | .idle => 0
  | .keyload => 1
  | .ready => 2

/-- The three-bit code of `FCODE` (R131). -/
def faultBits : FaultCode → BitVec 3
  | .none => 0
  | .illegal => 1
  | .hUsed => 2
  | .mSeq => 3
  | .cntOvf => 4

/-- `STATUS` (R30), most significant field first: reserved 15:11, FCODE 10:8, MEQ 7, MDV 6, MPHASE 5:4, reserved 3,
HEQ 2, HDV 1, HUSED 0. -/
def status (s : State) : BitVec 16 :=
  (0 : BitVec 5) ++ faultBits s.fcode ++ BitVec.ofBool s.m.meq ++ BitVec.ofBool s.m.mdv ++ phaseBits s.m.mphase ++
    (0 : BitVec 1) ++ BitVec.ofBool s.h.heq ++ BitVec.ofBool s.h.hdv ++ BitVec.ofBool s.h.hused

/-- What the host observes, apart from the handshake (R34). -/
structure Outputs where
  /-- `status_o`. -/
  statusO : BitVec 16
  /-- `fcmd_o`. -/
  fcmdO : BitVec 16
  /-- `hd_o`. -/
  hdO : BitVec 256
  /-- `md_o`. -/
  mdO : BitVec 256
  deriving DecidableEq, Repr

/-- The output ports, wires from state (R34, R44, R48). -/
def outputs (s : State) : Outputs :=
  { statusO := status s, fcmdO := s.fcmd, hdO := wire256 s.h.hd, mdO := wire256 s.m.md }

end Sys2Proof.Machine
end

