-- ==== Sys2Proof/Machine/Compress.lean ====
section
/-! DEFINITION. The compression transform (spec/40_compress.md R80 to R92). Addition is `+` of 32-bit words: "the carry
out of bit 31 is discarded" (R80). -/

namespace Sys2Proof.Machine

/-- `ROTR(x, n)`, for 0 < n < 32 (R81). -/
def rotr (x : Word) (n : Nat) : Word := (x >>> n) ||| (x <<< (32 - n))

/-- `SHR(x, n)`, the logical shift right (R81). -/
def shr (x : Word) (n : Nat) : Word := x >>> n

/-- `Ch(x, y, z)` (R82). -/
def ch (x y z : Word) : Word := (x &&& y) ^^^ (~~~x &&& z)

/-- `Maj(x, y, z)` (R82). -/
def maj (x y z : Word) : Word := (x &&& y) ^^^ (x &&& z) ^^^ (y &&& z)

/-- `Sigma0(x)` (R85). -/
def bigSigma0 (x : Word) : Word := rotr x 2 ^^^ rotr x 13 ^^^ rotr x 22

/-- `Sigma1(x)` (R85). -/
def bigSigma1 (x : Word) : Word := rotr x 6 ^^^ rotr x 11 ^^^ rotr x 25

/-- `sigma0(x)` (R86). -/
def smallSigma0 (x : Word) : Word := rotr x 7 ^^^ rotr x 18 ^^^ shr x 3

/-- `sigma1(x)` (R86). -/
def smallSigma1 (x : Word) : Word := rotr x 17 ^^^ rotr x 19 ^^^ shr x 10

/-- `W[t]` for t in 0..15: the block read big-endian (R42, R87). -/
def parseBlock (blk : Block) : List Word :=
  (List.finRange 16).map fun t => be32 blk[4 * t.val] blk[4 * t.val + 1] blk[4 * t.val + 2] blk[4 * t.val + 3]

/-- `W[t]` from the words before it, given newest first: `ws[j]` is `W[t-1-j]` (R88). -/
def nextWord (ws : List Word) : Word :=
  smallSigma1 (ws.getD 1 0) + ws.getD 6 0 + smallSigma0 (ws.getD 14 0) + ws.getD 15 0

/-- `n` more schedule words, newest first (R88). -/
def extendSchedule : Nat → List Word → List Word
  | 0, ws => ws
  | n + 1, ws => extendSchedule n (nextWord ws :: ws)

/-- `W[0..63]`, in index order (R87, R88). -/
def schedule (blk : Block) : List Word := (extendSchedule 48 (parseBlock blk).reverse).reverse

/-- The eight working variables of the transform. They are transient and no part of State (R31). -/
structure Vars where
  a : Word
  b : Word
  c : Word
  d : Word
  e : Word
  f : Word
  g : Word
  h : Word
  deriving DecidableEq, Repr

/-- The working variables seeded from the incoming state (R89). -/
def seed (s : HashWords) : Vars := ⟨s[0], s[1], s[2], s[3], s[4], s[5], s[6], s[7]⟩

/-- `T1` of a round (R90). -/
def roundT1 (v : Vars) (k w : Word) : Word := v.h + bigSigma1 v.e + ch v.e v.f v.g + k + w

/-- `T2` of a round (R90). -/
def roundT2 (v : Vars) : Word := bigSigma0 v.a + maj v.a v.b v.c

/-- One round: all eight assignments use the values from before it (R90). -/
def roundStep (v : Vars) (k w : Word) : Vars :=
  { h := v.g, g := v.f, f := v.e, e := v.d + roundT1 v k w, d := v.c, c := v.b, b := v.a,
    a := roundT1 v k w + roundT2 v }

/-- Rounds 0 to 63 in that order: round `t` uses `K[t]` and `W[t]` (R84, R90). -/
def runRounds (v : Vars) (ws : List Word) : Vars :=
  (roundConstants.zip ws).foldl (fun v kw => roundStep v kw.1 kw.2) v

/-- The working variables added into the incoming state, word by word (R91). -/
def feedForward (s : HashWords) (v : Vars) : HashWords :=
  #v[s[0] + v.a, s[1] + v.b, s[2] + v.c, s[3] + v.d, s[4] + v.e, s[5] + v.f, s[6] + v.g, s[7] + v.h]

/-- `Compress(S, B)` (R92): a function of its two inputs and nothing else (R93). -/
def compress (s : HashWords) (blk : Block) : HashWords := feedForward s (runRounds (seed s) (schedule blk))

end Sys2Proof.Machine
end

