-- ==== Sys2Proof/Machine/Hashing.lean ====
section
/-! DEFINITION. The two context functions every byte-absorbing and finalizing command uses: Absorb and Finalize
(spec/41_hash_commands.md R100, R102). -/

namespace Sys2Proof.Machine

/-- The context after storing a byte at the fill index and counting it, before any transform (R100). -/
def storeByte (c : Context) (b : Byte) : Context :=
  setTotal { c with buffer := putByte c.buffer (fill c) b } (total c + 8)

/-- `Absorb(ctx, b)`: the transform runs in the step that stores the 64th byte (R100). -/
def absorb (c : Context) (b : Byte) : Context :=
  if fill c = 63 then { storeByte c b with state := compress c.state (storeByte c b).buffer } else storeByte c b

/-- `Absorb` applied to each byte in order (R71, R109). -/
def absorbAll (c : Context) (bs : List Byte) : Context := bs.foldl absorb c

/-- The state and the buffer of `Finalize` just before the length field is written (R102): 0x80 at the fill index;
with no room for the length (fill 56 or more) zeros to the end, one transform and zeros to index 55; else zeros to
index 55. -/
def padStart (c : Context) : HashWords × Block :=
  let marked := putByte c.buffer (fill c) padByte
  if 56 ≤ fill c then
    let first := zeroRange marked (fill c + 1) 64
    (compress c.state first, zeroRange first 0 56)
  else (c.state, zeroRange marked (fill c + 1) 56)

/-- The last padded block: `buffer[56..63] <- BYTES64(L)` with `L` the counter, which padding does not change (R102). -/
def lastBlock (c : Context) : Block := putLength (padStart c).2 (total c)

/-- The state words after the last transform (R102). -/
def finalWords (c : Context) : HashWords := compress (padStart c).1 (lastBlock c)

/-- `Finalize(ctx)`: the used context, with the digest words in `state`, the last padded block in `buffer` and the
counter as it was, and the digest (R102, R37). It never faults. -/
def finalize (c : Context) : Context × Digest :=
  ({ c with state := finalWords c, buffer := lastBlock c }, serialise (finalWords c))

end Sys2Proof.Machine
end

