-- ==== Sys2Proof/Machine/Ops.lean ====
section
/-! DEFINITION. The named operations every command is built from: the writes of State, fault entry and the fault lock
(spec/60_exceptions.md R132, R133), the checks in the order of R134, the unit functions of H and M
(spec/42_hmac_commands.md R115, R116), reset (spec/70_reset_and_hazards.md R148) and presenting a command (R149). -/

namespace Sys2Proof.Machine

/-- Write unit `H`. -/
def setH (s : State) (h : HashUnit) : State := { s with h := h }

/-- Write unit `M`. -/
def setM (s : State) (m : HmacUnit) : State := { s with m := m }

/-- Write `EXP`. -/
def setExp (s : State) (e : Digest) : State := { s with exp := e }

/-- Write the fault registers. -/
def setFault (s : State) (code : FaultCode) (w : CmdWord) : State := { s with fcode := code, fcmd := w }

/-- Write the input list, the model's own field (log entry 1). -/
def setPort (s : State) (p : List PortCycle) : State := { s with port := p }

/-- TAKING A FAULT: `raise Fault(code)` while executing `w` writes `FCODE` and `FCMD` and nothing else (R132). There is
no return from it but reset (R140). -/
def raiseFault (code : FaultCode) (w : CmdWord) (s : State) : State := setFault s code w

/-- The engine is in the fault state (R133). -/
def locked (s : State) : Bool := s.fcode != .none

/-- The prologue of every command: under the lock the command is discarded and the state does not change (R133). -/
def underLock (s after : State) : State := if locked s then s else after

/-- The phase check of HBYTE, HFINAL and HMATCH (R136). -/
def requireUnused (w : CmdWord) (s after : State) : State := if s.h.hused then raiseFault .hUsed w s else after

/-- The phase check of the M-group commands (R137). -/
def requirePhase (p : Phase) (w : CmdWord) (s after : State) : State :=
  if s.m.mphase = p then after else raiseFault .mSeq w s

/-- The counter check of HBYTE, KBYTE and MBYTE on their target context (R138). -/
def requireRoom (c : Context) (w : CmdWord) (s after : State) : State :=
  if canAbsorb c then after else raiseFault .cntOvf w s

/-- Finalize `H.ctx` and publish the digest: the common part of HFINAL and HMATCH (R106, R107). -/
def publishDigest (h : HashUnit) : HashUnit :=
  { ctx := (finalize h.ctx).1, hd := (finalize h.ctx).2, hused := true, hdv := true, heq := false }

/-- The pad-preloaded context: `Created()` after absorbing the 64 bytes of `IK` (R115). -/
def primedContext (ik : Block) : Context := absorbAll created ik.toList

/-- `Prime(M)`: reads `M.IK`, writes `M.I` only (R115). -/
def prime (m : HmacUnit) : HmacUnit := { m with inner := primedContext m.ik }

/-- The outer context before its finalization: a fresh one that absorbs `OK` and the inner digest (R116). -/
def outerLoaded (ok : Block) (innerDigest : Digest) : Context :=
  absorbAll (absorbAll created ok.toList) innerDigest.toList

/-- `MacFinal(M)`: the two passes, the MAC published, the inner context primed again (R116). -/
def macFinal (m : HmacUnit) : HmacUnit :=
  let inner := finalize m.inner
  let outer := finalize (outerLoaded m.ok inner.2)
  prime { m with inner := inner.1, outer := outer.1, md := outer.2, mdv := true, meq := false }

/-- The pads after one more key byte: byte `n` of both while `n < 64`, with `n` the key bytes before it (R118). -/
def loadKeyByte (m : HmacUnit) (b : Byte) : HmacUnit :=
  let n := (total m.inner).toNat / 8
  if n < 64 then { m with ik := putByte m.ik n (b ^^^ ipad), ok := putByte m.ok n (b ^^^ opad) } else m

/-- The pads at the end of the key: a key of more than 64 bytes is hashed and replaces them (R119). -/
def finishPads (m : HmacUnit) : HmacUnit :=
  if keyBlockBits < (total m.inner).toNat then
    let hashed := finalize m.inner
    { m with inner := hashed.1, ik := digestPad hashed.2 ipad, ok := digestPad hashed.2 opad }
  else m

/-- RESET: the whole engine at the values of R35; the input still to come is not the engine's (R148). -/
def resetEngine (s : State) : State := setPort State.reset s.port

/-- The cycle in which the host presents `w` and the engine accepts it (R149). -/
def acceptedCycle (w : CmdWord) : PortCycle := { rst := false, valid := true, ready := true, cmd := w }

/-- "A command is accepted in a clock cycle in which `cmd_valid_i = 1` and `cmd_ready_o = 1` and `rst_i = 0`" (R149). -/
def accepts (c : PortCycle) : Bool := c.valid && c.ready && !c.rst

end Sys2Proof.Machine
end

