-- ==== Sys2Proof/Machine/HashCmds.lean ====
section
/-! DEFINITION. The commands of the H group and XBYTE (spec/41_hash_commands.md R104 to R108). Each meaning holds the
common prologue (the fault lock of R133), the checks in the order of R134 and the effect. The word a fault records is
the command's own encoding, the only legal word that decodes to it (log entry 5). -/

namespace Sys2Proof.Machine

/-- HINIT (R104): `H.HD` is not written. -/
def execHinit (s : State) : Host.Outcome State Fault Refusal :=
  .next (underLock s (setH s { s.h with ctx := created, hused := false, hdv := false, heq := false }))

/-- HBYTE b (R105). -/
def execHbyte (b : Byte) (s : State) : Host.Outcome State Fault Refusal :=
  .next (underLock s (requireUnused (encode (.hbyte b)) s (requireRoom s.h.ctx (encode (.hbyte b)) s
    (setH s { s.h with ctx := absorb s.h.ctx b }))))

/-- HFINAL (R106). -/
def execHfinal (s : State) : Host.Outcome State Fault Refusal :=
  .next (underLock s (requireUnused (encode .hfinal) s (setH s (publishDigest s.h))))

/-- HMATCH (R107): publishes the digest and compares it with `EXP`. -/
def execHmatch (s : State) : Host.Outcome State Fault Refusal :=
  .next (underLock s (requireUnused (encode .hmatch) s
    (setH s { publishDigest s.h with heq := digestEq (finalize s.h.ctx).2 s.exp })))

/-- XBYTE b (R108). -/
def execXbyte (b : Byte) (s : State) : Host.Outcome State Fault Refusal :=
  .next (underLock s (setExp s (shiftIn s.exp b)))

end Sys2Proof.Machine
end

