-- ==== Sys2Proof/Machine/HmacCmds.lean ====
section
/-! DEFINITION. The commands of the M group (spec/42_hmac_commands.md R117 to R123), each with the fault lock of R133,
the checks in the order of R134 and the effect. -/

namespace Sys2Proof.Machine

/-- KBEGIN (R117): legal in every phase; `M.O` and `M.MD` are not written. -/
def execKbegin (s : State) : Host.Outcome State Fault Refusal :=
  .next (underLock s (setM s { s.m with
    mphase := .keyload, inner := created, ik := zeroKeyPad ipad, ok := zeroKeyPad opad, mdv := false, meq := false }))

/-- KBYTE b (R118): the pads while fewer than 64 bytes have come, and always the key hasher. -/
def execKbyte (b : Byte) (s : State) : Host.Outcome State Fault Refusal :=
  .next (underLock s (requirePhase .keyload (encode (.kbyte b)) s (requireRoom s.m.inner (encode (.kbyte b)) s
    (setM s { loadKeyByte s.m b with inner := absorb s.m.inner b }))))

/-- KEND (R119). -/
def execKend (s : State) : Host.Outcome State Fault Refusal :=
  .next (underLock s (requirePhase .keyload (encode .kend) s
    (setM s { prime (finishPads s.m) with mphase := .ready })))

/-- MBYTE b (R120). -/
def execMbyte (b : Byte) (s : State) : Host.Outcome State Fault Refusal :=
  .next (underLock s (requirePhase .ready (encode (.mbyte b)) s (requireRoom s.m.inner (encode (.mbyte b)) s
    (setM s { s.m with inner := absorb s.m.inner b }))))

/-- MFINAL (R121). -/
def execMfinal (s : State) : Host.Outcome State Fault Refusal :=
  .next (underLock s (requirePhase .ready (encode .mfinal) s (setM s (macFinal s.m))))

/-- MMATCH (R122): computes the MAC as MFINAL does and compares it with `EXP`. -/
def execMmatch (s : State) : Host.Outcome State Fault Refusal :=
  .next (underLock s (requirePhase .ready (encode .mmatch) s
    (setM s { macFinal s.m with meq := digestEq (macFinal s.m).md s.exp })))

/-- MRESET (R123). -/
def execMreset (s : State) : Host.Outcome State Fault Refusal :=
  .next (underLock s (requirePhase .ready (encode .mreset) s (setM s (prime s.m))))

end Sys2Proof.Machine
end

