-- ==== Sys2Proof/Machine/Dispatch.lean ====
section
/-! DEFINITION. exec: one arm per constructor of Instr, each one call of its meaning. -/

namespace Sys2Proof.Machine

def exec (i : Instr) (s : State) : Host.Outcome State Fault Refusal :=
  match i with
  | .hinit => Sys2Proof.Machine.execHinit s
  | .hbyte b => Sys2Proof.Machine.execHbyte b s
  | .hfinal => Sys2Proof.Machine.execHfinal s
  | .hmatch => Sys2Proof.Machine.execHmatch s
  | .xbyte b => Sys2Proof.Machine.execXbyte b s
  | .kbegin => Sys2Proof.Machine.execKbegin s
  | .kbyte b => Sys2Proof.Machine.execKbyte b s
  | .kend => Sys2Proof.Machine.execKend s
  | .mbyte b => Sys2Proof.Machine.execMbyte b s
  | .mfinal => Sys2Proof.Machine.execMfinal s
  | .mmatch => Sys2Proof.Machine.execMmatch s
  | .mreset => Sys2Proof.Machine.execMreset s

end Sys2Proof.Machine
end

