-- ==== Sys2Proof/Machine/Fetch.lean ====
section
/-! DEFINITION. What the command port does in one cycle (spec/70_reset_and_hazards.md R148, R149): reset, nothing, or an
accepted word, which meets the fault lock first and the decoder next (spec/30_encoding.md R69). The engine "fetches
nothing: commands are presented by the host" (spec/20_memory.md R54). -/

namespace Sys2Proof.Machine

/-- What is left to do after the port: nothing more, or one decoded command. -/
inductive Received where
  /-- The cycle is settled without running a command. -/
  | settled (s : State)
  /-- The command to run, and the state it runs in. -/
  | run (i : Instr) (s : State)
  deriving DecidableEq, Repr

/-- An accepted word: discarded under the lock (R133); else decoded, and ILLEGAL raised where the word is illegal
(R67, R135). -/
def receiveWord (w : CmdWord) (s : State) : Received :=
  if locked s then .settled s
  else match decode w with
    | .illegal _ => .settled (raiseFault .illegal w s)
    | .cmd i => .run i s

/-- One port cycle. With no cycle to come the engine "is idle and holds all state" (R128, R157; log entry 3). With
`rst_i = 1` no command is accepted and the engine is reset (R148; log entry 4). -/
def fetch (s : State) : Received :=
  match s.port with
  | [] => .settled s
  | c :: rest =>
    if c.rst then .settled (resetEngine (setPort s rest))
    else if accepts c then receiveWord c.cmd (setPort s rest)
    else .settled (setPort s rest)

end Sys2Proof.Machine
end

