-- ==== Sys2Proof/Machine/Step.lean ====
section
/-! DEFINITION. One step: one port cycle, and the command it delivers, if any (spec/00_scope.md R6). -/

namespace Sys2Proof.Machine

/-- One step of the machine. -/
def step (s : State) : Host.Outcome State Fault Refusal :=
  match fetch s with
  | .settled t => .next t
  | .run i t => exec i t

/-- The state in which the host presents the word of the numbered bits next: one accepted cycle put before the input
still to come. Nothing else changes. -/
def State.withFetchWord (s : State) (nbits w : Nat) : State :=
  setPort s (acceptedCycle (BitVec.ofNat 16 (w % 2 ^ nbits)) :: s.port)

end Sys2Proof.Machine
end

