-- ==== Sys2Proof/Machine/Asm.lean ====
section
/-! DEFINITION. The host side of the command set: the assembler lines of spec/30_encoding.md R70 and the
pseudo-instructions of R71, each the command sequence it expands to. Nothing here is engine state. -/

namespace Sys2Proof.Machine

/-- The mnemonics of the format N commands (R65, R70). -/
def mnemonicsN : List (String × Instr) :=
  [("HINIT", .hinit), ("HFINAL", .hfinal), ("HMATCH", .hmatch), ("KBEGIN", .kbegin)] ++
  [("KEND", .kend), ("MFINAL", .mfinal), ("MMATCH", .mmatch), ("MRESET", .mreset)]

/-- The mnemonics of the format D commands (R65, R70). -/
def mnemonicsD : List (String × (Byte → Instr)) :=
  [("HBYTE", .hbyte), ("XBYTE", .xbyte), ("KBYTE", .kbyte), ("MBYTE", .mbyte)]

/-- The mnemonic of a command (R65). -/
def mnemonicOf : Instr → String
  | .hinit => "HINIT"
  | .hbyte _ => "HBYTE"
  | .hfinal => "HFINAL"
  | .hmatch => "HMATCH"
  | .xbyte _ => "XBYTE"
  | .kbegin => "KBEGIN"
  | .kbyte _ => "KBYTE"
  | .kend => "KEND"
  | .mbyte _ => "MBYTE"
  | .mfinal => "MFINAL"
  | .mmatch => "MMATCH"
  | .mreset => "MRESET"

/-- The data byte of a command, which only format D has (R64, R66). -/
def operandOf : Instr → Option Byte
  | .hbyte b | .xbyte b | .kbyte b | .mbyte b => some b
  | .hinit | .hfinal | .hmatch | .kbegin | .kend | .mfinal | .mmatch | .mreset => none

/-- A hexadecimal digit. -/
def hexChar (n : Nat) : Char := if n < 10 then Char.ofNat (48 + n) else Char.ofNat (87 + n)

/-- The line of a command: its mnemonic and, for format D, the byte as `0x..` (R70). -/
def renderLine (i : Instr) : List Char :=
  match operandOf i with
  | none => (mnemonicOf i).toList
  | some b => (mnemonicOf i).toList ++ [' ', '0', 'x', hexChar (b.toNat / 16), hexChar (b.toNat % 16)]

/-- The line of a command with its byte as a quoted character, for a byte that is an ASCII character (R70). -/
def renderQuoted (i : Instr) : List Char :=
  match operandOf i with
  | none => (mnemonicOf i).toList
  | some b => (mnemonicOf i).toList ++ [' ', '\'', Char.ofNat b.toNat, '\'']

/-- The value of a hexadecimal digit; either case is read (DESIGN CHOICE, log entry 7). -/
def hexDigit (c : Char) : Option Nat :=
  if '0' ≤ c ∧ c ≤ '9' then some (c.toNat - '0'.toNat)
  else if 'a' ≤ c ∧ c ≤ 'f' then some (c.toNat - 'a'.toNat + 10)
  else if 'A' ≤ c ∧ c ≤ 'F' then some (c.toNat - 'A'.toNat + 10)
  else none

/-- The byte operand, "as `0x..` or as a quoted ASCII character" (R70). -/
def parseByte : List Char → Option Byte
  | ['\'', c, '\''] => if c.toNat < 128 then some (BitVec.ofNat 8 c.toNat) else none
  | ['0', 'x', p, q] =>
    match hexDigit p, hexDigit q with
    | some hi, some lo => some (BitVec.ofNat 8 (16 * hi + lo))
    | _, _ => none
  | _ => none

/-- Leading spaces dropped (DESIGN CHOICE, log entry 7: blanks between and around the parts of a line mean nothing). -/
def dropBlanks (cs : List Char) : List Char := cs.dropWhile (· == ' ')

/-- The row of a name in a table of mnemonics. -/
def lookupName {α : Type} (table : List (String × α)) (name : List Char) : Option α :=
  (table.find? fun r => r.1.toList == name).map Prod.snd

/-- One line: its comment is `;` to the end of the line; then nothing, a mnemonic, or a mnemonic and a byte (R70).
DESIGN CHOICE, log entry 7: a line that holds no command (empty, blank, or a comment only) is allowed and
assembles to no command; any other line that is no command gives no result. -/
def assembleLine (line : List Char) : Option (List Instr) :=
  let text := dropBlanks (dropBlanks (line.takeWhile (· != ';'))).reverse
  let text := text.reverse
  let name := text.takeWhile (· != ' ')
  let operand := dropBlanks (text.drop name.length)
  if name = [] then some []
  else if operand = [] then (lookupName mnemonicsN name).map fun i => [i]
  else match lookupName mnemonicsD name, parseByte operand with
    | some f, some b => some [f b]
    | _, _ => none

/-- "A program is a sequence of commands, one per line, executed in order" (R70). -/
def assemble : List (List Char) → Option (List Instr)
  | [] => some []
  | line :: rest =>
    match assembleLine line, assemble rest with
    | some is, some more => some (is ++ more)
    | _, _ => none

/-- `hash.new` (R71). -/
def hashNew : List Instr := [.hinit]

/-- `hash.update m`: `X(HBYTE, m)` (R71). -/
def hashUpdate (m : List Byte) : List Instr := m.map .hbyte

/-- `hash.finalize` (R71). -/
def hashFinalize : List Instr := [.hfinal]

/-- `X(XBYTE, e)` (R71). -/
def loadExpected (e : List Byte) : List Instr := e.map .xbyte

/-- `hash.matches e` (R71). -/
def hashMatches (e : List Byte) : List Instr := loadExpected e ++ [.hmatch]

/-- `hash m` (R71). -/
def hashMessage (m : List Byte) : List Instr := hashNew ++ hashUpdate m ++ hashFinalize

/-- `hmac.new k` (R71). -/
def hmacNew (k : List Byte) : List Instr := [.kbegin] ++ k.map .kbyte ++ [.kend]

/-- `hmac.update m` (R71). -/
def hmacUpdate (m : List Byte) : List Instr := m.map .mbyte

/-- `hmac.finalize` (R71). -/
def hmacFinalize : List Instr := [.mfinal]

/-- `hmac.matches e` (R71). -/
def hmacMatches (e : List Byte) : List Instr := loadExpected e ++ [.mmatch]

/-- `hmac.reset` (R71). -/
def hmacReset : List Instr := [.mreset]

/-- The bytes of a null-terminated text before its first 0x00 byte; "the terminator is not sent" (R71). -/
def textBytes (s : List Byte) : List Byte := s.takeWhile (· != 0)

/-- `hash.update_str s` (R71). -/
def hashUpdateStr (s : List Byte) : List Instr := hashUpdate (textBytes s)

/-- `hmac.update_str s` (R71). -/
def hmacUpdateStr (s : List Byte) : List Instr := hmacUpdate (textBytes s)

end Sys2Proof.Machine
end

