-- ==== Sys2Proof/Safety.lean ====
section
/-! DEFINITION. What counts as a correct run (spec/60_exceptions.md R130, spec/70_reset_and_hazards.md R157), the
functions the engine is to compute, defined apart from it (spec/41_hash_commands.md R109, spec/42_hmac_commands.md R124,
R125), and the invariants of the state (spec/10_state.md R22, R23, R27, R37). Claims are stated in these terms. -/

namespace Sys2Proof.Machine

/-- "A run has gone wrong exactly when `FCODE != 0` at its end" (R157). -/
def faultFree (s : State) : Bool := s.fcode == .none

/-- A finite command stream applied to a state, stopping at the first fault or refusal (R157). -/
def runCommands : List Instr → State → Host.Outcome State Fault Refusal
  | [], s => .next s
  | i :: is, s =>
    match exec i s with
    | .next t => runCommands is t
    | .fault r => .fault r
    | .refused r => .refused r

/-- The port cycles in which the host presents a command stream and the engine accepts each word at once (R149). -/
def presented (is : List Instr) : List PortCycle := is.map fun i => acceptedCycle (encode i)

/-- The commands of the H group (R36). -/
def isHGroup : Instr → Bool
  | .hinit | .hbyte _ | .hfinal | .hmatch => true
  | .xbyte _ | .kbegin | .kbyte _ | .kend | .mbyte _ | .mfinal | .mmatch | .mreset => false

/-- The commands of the M group (R36). -/
def isMGroup : Instr → Bool
  | .kbegin | .kbyte _ | .kend | .mbyte _ | .mfinal | .mmatch | .mreset => true
  | .hinit | .hbyte _ | .hfinal | .hmatch | .xbyte _ => false

/-- XBYTE, the one command of neither group (R36). -/
def isXbyte : Instr → Bool
  | .xbyte _ => true
  | .hinit | .hbyte _ | .hfinal | .hmatch | .kbegin | .kbyte _ | .kend | .mbyte _ | .mfinal | .mmatch | .mreset => false

/-- The command finds the phase its rule requires and room for its byte: correct use (R130, R131). -/
def correctUse (i : Instr) (s : State) : Bool :=
  match i with
  | .hinit | .xbyte _ | .kbegin => true
  | .hbyte _ => !s.h.hused && canAbsorb s.h.ctx
  | .hfinal | .hmatch => !s.h.hused
  | .kbyte _ => s.m.mphase == .keyload && canAbsorb s.m.inner
  | .kend => s.m.mphase == .keyload
  | .mbyte _ => s.m.mphase == .ready && canAbsorb s.m.inner
  | .mfinal | .mmatch | .mreset => s.m.mphase == .ready

/-- The fault a command out of place reports: the phase fault before the counter fault (R131, R134). -/
def faultOf (i : Instr) (s : State) : FaultCode :=
  if correctUse i s then .none
  else match i with
    | .hinit | .xbyte _ | .kbegin => .none
    | .hbyte _ => if s.h.hused then .hUsed else .cntOvf
    | .hfinal | .hmatch => .hUsed
    | .kbyte _ => if s.m.mphase = .keyload then .cntOvf else .mSeq
    | .mbyte _ => if s.m.mphase = .ready then .cntOvf else .mSeq
    | .kend | .mfinal | .mmatch | .mreset => .mSeq

/-- The block made of the first 64 bytes of a list, with zero bytes where it is shorter. -/
def blockOf (bs : List Byte) : Block := Vector.ofFn fun i => bs.getD i.val 0

/-- A byte sequence cut into its first `n` blocks (R109). -/
def cutBlocks : Nat → List Byte → List Block
  | 0, _ => []
  | n + 1, bs => blockOf bs :: cutBlocks n (bs.drop 64)

/-- The number of zero bytes in the padding: `z` of R109. -/
def zeroFill (len : Nat) : Nat := (119 - len % 64) % 64

/-- `P = m ‖ 0x80 ‖ 0^z ‖ BYTES64(8 * len(m))` (R109). -/
def paddedMessage (m : List Byte) : List Byte :=
  m ++ [padByte] ++ List.replicate (zeroFill m.length) 0 ++ (bytes64 (BitVec.ofNat 64 (8 * m.length))).toList

/-- The blocks `P_0, ..., P_(r-1)` of a padded message (R109). -/
def messageBlocks (m : List Byte) : List Block := cutBlocks ((paddedMessage m).length / 64) (paddedMessage m)

/-- `Sha256(m)` by blocks: `S_0 = IV`, `S_(j+1) = Compress(S_j, P_j)`, serialised (R109). -/
def sha256 (m : List Byte) : Digest := serialise ((messageBlocks m).foldl compress iv)

/-- `key'(k)`: the key or its digest, right-padded with zeros to 64 bytes (R124). -/
def keyBlock (k : List Byte) : Block := if k.length ≤ 64 then blockOf k else blockOf (sha256 k).toList

/-- `Sha256(OK ‖ Sha256(IK ‖ m))`: the MAC of a message under two pads (R121). -/
def macWith (ik ok : Block) (m : List Byte) : Digest := sha256 (ok.toList ++ (sha256 (ik.toList ++ m)).toList)

/-- `Hmac(k, m)` (R125). -/
def hmac (k m : List Byte) : Digest := macWith (xorPad (keyBlock k) ipad) (xorPad (keyBlock k) opad) m

/-- The context is `start` after the absorption of a message its counter can count (R22, R23, R101). -/
def Absorbed (start : Context) (m : List Byte) (c : Context) : Prop :=
  c = absorbAll start m ∧ (total start).toNat + 8 * m.length < 2 ^ 64

/-- `H` between commands: an open context holds the message absorbed since it was created (R22, R23); a used one is
what Finalize left of such a context, with its digest in `HD` (R25, R37); the flags as R25 and R155 say. -/
def hashInv (h : HashUnit) : Prop :=
  (h.hused = false → ∃ m, Absorbed created m h.ctx) ∧
  (h.hused = true → ∃ m c, Absorbed created m c ∧ h.ctx = (finalize c).1 ∧ h.hd = (finalize c).2) ∧
  h.hdv = h.hused ∧ (h.heq = true → h.hdv = true)

/-- `M` in IDLE is as reset left it (R35, R146); in KEYLOAD it holds the key received so far (R118); in READY its pads
are those of one block-sized key and its inner context is the primed one plus the message (R27). The flags as R26. -/
def hmacInv (m : HmacUnit) : Prop :=
  (m.mphase = .idle → m = State.reset.m) ∧
  (m.mphase = .keyload → m.mdv = false ∧ ∃ k, Absorbed created k m.inner ∧
    m.ik = xorPad (blockOf k) ipad ∧ m.ok = xorPad (blockOf k) opad) ∧
  (m.mphase = .ready → ∃ key msg, m.ik = xorPad key ipad ∧ m.ok = xorPad key opad ∧
    Absorbed (primedContext m.ik) msg m.inner) ∧
  (m.meq = true → m.mdv = true)

/-- The fault registers explain themselves: `FCMD` is 0 without a fault (R29), and else the word that raised the fault,
whose condition still holds because the fault changed nothing else (R131, R132). -/
def faultInv (s : State) : Prop :=
  match s.fcode with
  | .none => s.fcmd = 0
  | .illegal => ∃ why, decode s.fcmd = .illegal why
  | .hUsed => ∃ i, decode s.fcmd = .cmd i ∧ faultOf i s = .hUsed
  | .mSeq => ∃ i, decode s.fcmd = .cmd i ∧ faultOf i s = .mSeq
  | .cntOvf => ∃ i, decode s.fcmd = .cmd i ∧ faultOf i s = .cntOvf

/-- The invariant of the whole engine. -/
def EngineInv (s : State) : Prop := hashInv s.h ∧ hmacInv s.m ∧ faultInv s

end Sys2Proof.Machine
end

