-- ==== Sys2Proof/Certificates/Slice0/Obligations.lean ====
section
/-! DEFINITION. The statements for the provers. Each docstring names the rule of spec/ it formalises. `s.fcode = .none`
is the premise "no fault recorded" of spec/60_exceptions.md R133; what happens without it is
`Obligations.FaultLockDiscardsEveryWord`. -/

open Sys2Proof Sys2Proof.Machine

/-! ### Reset, the port, a step -/

/-- R35: the reset value of every piece of engine state, in numbers; `STATUS = 0x0000`. -/
def Obligations.ResetStateValues : Prop :=
  (∀ c ∈ [State.reset.h.ctx, State.reset.m.inner, State.reset.m.outer],
    c.state = #v[0x6A09E667, 0xBB67AE85, 0x3C6EF372, 0xA54FF53A, 0x510E527F, 0x9B05688C, 0x1F83D9AB, 0x5BE0CD19] ∧
    c.totalHi = 0 ∧ c.totalLo = 0 ∧ ∀ i (h : i < 64), c.buffer[i] = 0) ∧
  State.reset.h.hused = false ∧ State.reset.h.hdv = false ∧ State.reset.h.heq = false ∧
  (∀ i (h : i < 32), State.reset.h.hd[i] = 0 ∧ State.reset.m.md[i] = 0 ∧ State.reset.exp[i] = 0) ∧
  (∀ i (h : i < 64), State.reset.m.ik[i] = 0 ∧ State.reset.m.ok[i] = 0) ∧
  State.reset.m.mphase = .idle ∧ State.reset.m.mdv = false ∧ State.reset.m.meq = false ∧
  State.reset.fcode = .none ∧ State.reset.fcmd = 0 ∧ status State.reset = 0

/-- R148: a cycle with `rst_i = 1` accepts no command, whatever else the pins say, and leaves every piece of engine
state at its reset value, a fault included. That the values stand already in that cycle is the model's reading (log
entry 4); the input still to come is the model's own field (log entry 1). -/
def Obligations.ResetCycleRestoresEngine : Prop :=
  ∀ (s : State) (c : PortCycle) (rest : List PortCycle), s.port = c :: rest → c.rst = true →
    step s = .next { State.reset with port := rest }

/-- R149, R128, R148: without a reset, a cycle in which valid and ready are not both high changes nothing in the
engine; nor does a step with no cycle to come (log entry 3). -/
def Obligations.UnacceptedCycleChangesNothing : Prop :=
  (∀ (s : State) (c : PortCycle) (rest : List PortCycle), s.port = c :: rest → c.rst = false →
    (c.valid = false ∨ c.ready = false) → step s = .next { s with port := rest }) ∧
  (∀ s : State, s.port = [] → step s = .next s)

/-- R6, R69, R149: an accepted word that decodes to a command runs exactly that command, on the state with the cycle
consumed. The second clause says the same of the host's placement of a word. -/
def Obligations.StepRunsDecodedInstruction : Prop :=
  (∀ (s : State) (c : PortCycle) (rest : List PortCycle) (i : Instr), s.port = c :: rest →
    c.rst = false → c.valid = true → c.ready = true → decode c.cmd = .cmd i →
    step s = exec i { s with port := rest }) ∧
  (∀ (s : State) (w : Nat) (i : Instr), decodeTableWord 16 w = some i → step (s.withFetchWord 16 w) = exec i s)

/-- R67, R135, R132: an accepted word that is illegal by R67's three checks raises ILLEGAL: `FCODE <- 1`, `FCMD` the
word, nothing else. With R135's four examples from reset: `STATUS = 0x0100`, `FCMD` the word. -/
def Obligations.IllegalWordRaisesIllegal : Prop :=
  (∀ (s : State) (c : PortCycle) (rest : List PortCycle), s.port = c :: rest →
    c.rst = false → c.valid = true → c.ready = true → s.fcode = .none → WellFormed.wordLegal c.cmd = false →
    step s = .next { s with port := rest, fcode := .illegal, fcmd := c.cmd }) ∧
  (∀ w ∈ [0x0000, 0x1001, 0x2161, 0xD000], ∃ t, step (State.reset.withFetchWord 16 w) = .next t ∧
    status t = 0x0100 ∧ t.fcmd = BitVec.ofNat 16 w)

/-- R133: while a fault is recorded every accepted word, legal or not, is discarded and the engine does not change at
all; so no command and no command stream has any effect, on either unit. -/
def Obligations.FaultLockDiscardsEveryWord : Prop :=
  ∀ s : State, s.fcode ≠ .none →
    (∀ (c : PortCycle) (rest : List PortCycle), s.port = c :: rest → c.rst = false →
      step s = .next { s with port := rest }) ∧
    (∀ i : Instr, exec i s = .next s) ∧ (∀ is : List Instr, runCommands is s = .next s)

/-- R131, R132, R134, R136 to R138: a command out of place takes the fault its table names, the phase fault before the
counter fault, and fault entry writes `FCODE` and `FCMD` and nothing else. -/
def Obligations.FaultEntryWritesOnlyFaultRegisters : Prop :=
  ∀ (i : Instr) (s : State), s.fcode = .none → faultOf i s ≠ .none →
    exec i s = .next { s with fcode := faultOf i s, fcmd := encode i }

/-- R130: a command in correct use completes and records no fault. -/
def Obligations.CorrectUseRaisesNothing : Prop :=
  ∀ (i : Instr) (s : State), s.fcode = .none → correctUse i s = true →
    ∃ t, exec i s = .next t ∧ t.fcode = .none ∧ t.fcmd = s.fcmd ∧ t.port = s.port

/-- R9, R130, R132: every command is a total function of the state and the word: a step and a command always end in a
next state, faults included, so every accepted command completes. -/
def Obligations.EveryStepCompletes : Prop :=
  ∀ s : State, (∃ t, step s = .next t) ∧ ∀ i : Instr, ∃ t, exec i s = .next t ∧ t.port = s.port

/-! ### Encoding -/

/-- R64, R65, R69: decoding the encoding of a command gives the command back, with every data byte at every value. -/
def Obligations.DecodeOfEncodeIsIdentity : Prop := ∀ i : Instr, decode (encode i) = .cmd i

/-- R64, R67, R69: each command has one word only: a word that decodes to a command is that command's encoding. -/
def Obligations.DecodedWordIsItsEncoding : Prop := ∀ (w : CmdWord) (i : Instr), decode w = .cmd i → encode i = w

/-- R65, R67, R69: the decoder accepts exactly the words R67's three checks call legal, and exactly the words that
select a row of the opcode map. -/
def Obligations.LegalWordsAreTheCommands : Prop :=
  ∀ w : CmdWord, (WellFormed.wordLegal w = true ↔ ∃ i, decode w = .cmd i) ∧
    (WellFormed.wordLegal w = true ↔ ∃ r ∈ WellFormed.opcodeMap, r.selects w = true)

/-- R65, R66: a word that selects a row of the opcode map decodes to that row's command, and the operand of a format D
command is the word's low byte. -/
def Obligations.OpcodeMapSelectsTheCommand : Prop :=
  ∀ (w : CmdWord), ∀ r ∈ WellFormed.opcodeMap, r.selects w = true →
    ∃ i, decode w = .cmd i ∧ mnemonicOf i = r.mnemonic ∧
      ∀ b, operandOf i = some b → b.toNat = w.toNat % 256

/-- R65, R70 and the programs P1, P3, P9 of spec/95_test_vectors.md: words written out there decode to the commands
written beside them. -/
def Obligations.WordsOfTheSpecDecode : Prop :=
  decode 0x1000 = .cmd .hinit ∧ decode 0x2061 = .cmd (.hbyte 0x61) ∧ decode 0x3000 = .cmd .hfinal ∧
  decode 0x4000 = .cmd .hmatch ∧ decode 0x50AD = .cmd (.xbyte 0xAD) ∧ decode 0x6000 = .cmd .kbegin ∧
  decode 0x704A = .cmd (.kbyte 0x4A) ∧ decode 0x8000 = .cmd .kend ∧ decode 0x9077 = .cmd (.mbyte 0x77) ∧
  decode 0xA000 = .cmd .mfinal ∧ decode 0xB000 = .cmd .mmatch ∧ decode 0xC000 = .cmd .mreset

/-- R70: the assembler reads back the line of every command, with the byte as `0x..` and, where it is an ASCII
character, quoted. -/
def Obligations.AssemblerReadsBackEveryCommand : Prop :=
  (∀ i : Instr, assembleLine (renderLine i) = some [i]) ∧
  (∀ (i : Instr) (b : Byte), operandOf i = some b → b.toNat < 128 → b ≠ 0x3B →
    assembleLine (renderQuoted i) = some [i])

/-! ### The compression transform -/

/-- R81: bit `i` of `ROTR(x, n)` is bit `(i + n) mod 32` of `x`; bit `i` of `SHR(x, n)` is bit `i + n` of `x`, and the
top `n` bits are 0. With the corner cases of R81. -/
def Obligations.RotateAndShiftBits : Prop :=
  (∀ (x : Word) (n i : Nat), 0 < n → n < 32 → i < 32 →
    (rotr x n).getLsbD i = x.getLsbD ((i + n) % 32) ∧
    (shr x n).getLsbD i = if i + n < 32 then x.getLsbD (i + n) else false) ∧
  rotr 0x00000001 1 = 0x80000000 ∧ rotr 0x80000001 31 = 0x00000003 ∧ shr 0x80000000 31 = 0x00000001

/-- R82: each bit of Ch is the bit of `y` where `x` has 1 and of `z` where `x` has 0; each bit of Maj is the majority of
the three. With the corner cases and the example of R82. -/
def Obligations.ChoiceAndMajorityBits : Prop :=
  (∀ (x y z : Word) (i : Nat), i < 32 →
    (ch x y z).getLsbD i = (if x.getLsbD i then y.getLsbD i else z.getLsbD i) ∧
    (maj x y z).getLsbD i =
      decide (2 ≤ (x.getLsbD i).toNat + (y.getLsbD i).toNat + (z.getLsbD i).toNat)) ∧
  (∀ x y z : Word, ch x y z = (x &&& y) ^^^ (~~~x &&& z) ∧ maj x y z = (x &&& y) ^^^ (x &&& z) ^^^ (y &&& z)) ∧
  (∀ x y z : Word, ch 0xFFFFFFFF y z = y ∧ ch 0 y z = z ∧ maj x x z = x) ∧
  ch 0x510E527F 0x9B05688C 0x1F83D9AB = 0x1F85C98C ∧ maj 0x6A09E667 0xBB67AE85 0x3C6EF372 = 0x3A6FE667

/-- R85, R86: each bit of a sigma function is the exclusive or of the three bits its rotations (and, for a small sigma,
its shift) bring there. With the corner cases and the examples of both rules. -/
def Obligations.SigmaFunctionBits : Prop :=
  (∀ (x : Word) (i : Nat), i < 32 →
    (bigSigma0 x).getLsbD i = (x.getLsbD ((i + 2) % 32) ^^ x.getLsbD ((i + 13) % 32) ^^ x.getLsbD ((i + 22) % 32)) ∧
    (bigSigma1 x).getLsbD i = (x.getLsbD ((i + 6) % 32) ^^ x.getLsbD ((i + 11) % 32) ^^ x.getLsbD ((i + 25) % 32)) ∧
    (smallSigma0 x).getLsbD i = (x.getLsbD ((i + 7) % 32) ^^ x.getLsbD ((i + 18) % 32) ^^ x.getLsbD (i + 3)) ∧
    (smallSigma1 x).getLsbD i = (x.getLsbD ((i + 17) % 32) ^^ x.getLsbD ((i + 19) % 32) ^^ x.getLsbD (i + 10))) ∧
  (bigSigma0 0 = 0 ∧ bigSigma0 0xFFFFFFFF = 0xFFFFFFFF ∧ bigSigma0 0x6A09E667 = 0xCE20B47E) ∧
  (bigSigma1 0 = 0 ∧ bigSigma1 0xFFFFFFFF = 0xFFFFFFFF ∧ bigSigma1 0x510E527F = 0x3587272B) ∧
  (smallSigma0 0 = 0 ∧ smallSigma0 0xFFFFFFFF = 0x1FFFFFFF ∧ smallSigma0 0x00000001 = 0x02004000) ∧
  (smallSigma1 0 = 0 ∧ smallSigma1 0xFFFFFFFF = 0x003FFFFF ∧ smallSigma1 0x00000001 = 0x0000A000)

/-- R42, R87, R88, R8: the schedule has 64 words; each of the first sixteen has the block's byte `4t` in its bits 31:24,
`4t + 1` in 23:16, `4t + 2` in 15:8 and `4t + 3` in 7:0; the others follow the recurrence; the all-zero block gives zero
words. -/
def Obligations.ScheduleRecurrence : Prop :=
  (∀ blk : Block, (schedule blk).length = 64 ∧
    (∀ t (h : t < 16),
      ((schedule blk).getD t 0).extractLsb' 24 8 = blk[4 * t] ∧
      ((schedule blk).getD t 0).extractLsb' 16 8 = blk[4 * t + 1] ∧
      ((schedule blk).getD t 0).extractLsb' 8 8 = blk[4 * t + 2] ∧
      ((schedule blk).getD t 0).extractLsb' 0 8 = blk[4 * t + 3]) ∧
    (∀ t, 16 ≤ t → t < 64 → (schedule blk).getD t 0 =
      smallSigma1 ((schedule blk).getD (t - 2) 0) + (schedule blk).getD (t - 7) 0 +
        smallSigma0 ((schedule blk).getD (t - 15) 0) + (schedule blk).getD (t - 16) 0)) ∧
  (∀ blk : Block, (∀ i (h : i < 64), blk[i] = 0) → ∀ t, t < 64 → (schedule blk).getD t 0 = 0)

/-- R84, R89 to R92: Compress is 64 rounds in the order t = 0, ..., 63 on the variables seeded from the state, and the
feed-forward of each word. Round `t` is R90's: `T1` from `h`, `e`, `f`, `g`, `K[t]` and `W[t]`, `T2` from `a`, `b`, `c`,
and the eight assignments made at once, written here as the tuple of the new `a` to `h`; `K` is R84's table in numbers.
The sigma functions, Ch and Maj are opened by `Obligations.SigmaFunctionBits` and `Obligations.ChoiceAndMajorityBits`, the
schedule by `Obligations.ScheduleRecurrence`. -/
def Obligations.CompressRunsSixtyFourRounds : Prop :=
  ∀ (s : HashWords) (blk : Block),
    let k : List Word :=
      [0x428A2F98, 0x71374491, 0xB5C0FBCF, 0xE9B5DBA5, 0x3956C25B, 0x59F111F1, 0x923F82A4, 0xAB1C5ED5] ++
      [0xD807AA98, 0x12835B01, 0x243185BE, 0x550C7DC3, 0x72BE5D74, 0x80DEB1FE, 0x9BDC06A7, 0xC19BF174] ++
      [0xE49B69C1, 0xEFBE4786, 0x0FC19DC6, 0x240CA1CC, 0x2DE92C6F, 0x4A7484AA, 0x5CB0A9DC, 0x76F988DA] ++
      [0x983E5152, 0xA831C66D, 0xB00327C8, 0xBF597FC7, 0xC6E00BF3, 0xD5A79147, 0x06CA6351, 0x14292967] ++
      [0x27B70A85, 0x2E1B2138, 0x4D2C6DFC, 0x53380D13, 0x650A7354, 0x766A0ABB, 0x81C2C92E, 0x92722C85] ++
      [0xA2BFE8A1, 0xA81A664B, 0xC24B8B70, 0xC76C51A3, 0xD192E819, 0xD6990624, 0xF40E3585, 0x106AA070] ++
      [0x19A4C116, 0x1E376C08, 0x2748774C, 0x34B0BCB5, 0x391C0CB3, 0x4ED8AA4A, 0x5B9CCA4F, 0x682E6FF3] ++
      [0x748F82EE, 0x78A5636F, 0x84C87814, 0x8CC70208, 0x90BEFFFA, 0xA4506CEB, 0xBEF9A3F7, 0xC67178F2]
    let v := (List.range 64).foldl
      (fun (v : Vars) t =>
        let t1 := v.h + bigSigma1 v.e + ch v.e v.f v.g + k.getD t 0 + (schedule blk).getD t 0
        let t2 := bigSigma0 v.a + maj v.a v.b v.c
        (⟨t1 + t2, v.a, v.b, v.c, v.d + t1, v.e, v.f, v.g⟩ : Vars))
      ⟨s[0], s[1], s[2], s[3], s[4], s[5], s[6], s[7]⟩
    k.length = 64 ∧ roundConstants = k ∧
    compress s blk =
      #v[s[0] + v.a, s[1] + v.b, s[2] + v.c, s[3] + v.d, s[4] + v.e, s[5] + v.f, s[6] + v.g, s[7] + v.h]

/-! ### Contexts -/

/-- R94: what absorbing does to the two halves of the counter, and that the addition never wraps under the guard. -/
def Obligations.CounterCarriesBetweenHalves : Prop :=
  ∀ (c : Context) (b : Byte),
    (absorb c b).totalLo = c.totalLo + 8 ∧
    (absorb c b).totalHi = (if 0xFFFFFFF8 ≤ c.totalLo then c.totalHi + 1 else c.totalHi) ∧
    ((total c).toNat % 8 = 0 → canAbsorb c = true → (total (absorb c b)).toNat = (total c).toNat + 8)

/-- R101: CanAbsorb fails exactly at `total_hi = 0xFFFFFFFF`, `total_lo = 0xFFFFFFF8`; on a whole number of bytes it is
exactly `total + 8 < 2^64`. -/
def Obligations.CanAbsorbIsRoomForOneByte : Prop :=
  ∀ c : Context,
    (canAbsorb c = true ↔ ¬(c.totalHi = 0xFFFFFFFF ∧ c.totalLo = 0xFFFFFFF8)) ∧
    ((total c).toNat % 8 = 0 → (canAbsorb c = true ↔ (total c).toNat + 8 < 2 ^ 64))

/-- R100, R22: absorbing stores the byte at the fill index, leaves the other 63, counts 8 bits, and runs the transform
exactly when the byte is the 64th of a block, so that afterwards the fill is 0. -/
def Obligations.AbsorbStoresCountsAndTransforms : Prop :=
  ∀ (c : Context) (b : Byte),
    (∀ i (h : i < 64), (absorb c b).buffer[i] = if i = fill c then b else c.buffer[i]) ∧
    total (absorb c b) = total c + 8 ∧
    fill (absorb c b) = (fill c + 1) % 64 ∧
    (fill c ≠ 63 → (absorb c b).state = c.state) ∧
    (fill c = 63 → (absorb c b).state = compress c.state (absorb c b).buffer)

/-- R102, R43, R37: what Finalize leaves. One transform when the fill is at most 55, two when it is 56 or more; the
layout of each padded block, byte by byte; in the last block the eight length bytes, `total_hi` before `total_lo` and each
most significant byte first; the counter as it was; the digest the serialised state words. -/
def Obligations.FinalizePadsAndTransforms : Prop :=
  ∀ c : Context,
    total (finalize c).1 = total c ∧ (finalize c).2 = serialise (finalize c).1.state ∧
    ((finalize c).1.buffer[56] = c.totalHi.extractLsb' 24 8 ∧ (finalize c).1.buffer[57] = c.totalHi.extractLsb' 16 8 ∧
      (finalize c).1.buffer[58] = c.totalHi.extractLsb' 8 8 ∧ (finalize c).1.buffer[59] = c.totalHi.extractLsb' 0 8 ∧
      (finalize c).1.buffer[60] = c.totalLo.extractLsb' 24 8 ∧ (finalize c).1.buffer[61] = c.totalLo.extractLsb' 16 8 ∧
      (finalize c).1.buffer[62] = c.totalLo.extractLsb' 8 8 ∧ (finalize c).1.buffer[63] = c.totalLo.extractLsb' 0 8) ∧
    (fill c ≤ 55 → (finalize c).1.state = compress c.state (finalize c).1.buffer ∧
      ∀ i (h : i < 56), (finalize c).1.buffer[i] =
        if i < fill c then c.buffer[i] else if i = fill c then (0x80 : Byte) else 0) ∧
    (56 ≤ fill c → ∃ first : Block,
      (∀ i (h : i < 64), first[i] = if i < fill c then c.buffer[i] else if i = fill c then 0x80 else 0) ∧
      (finalize c).1.state = compress (compress c.state first) (finalize c).1.buffer ∧
      ∀ i (h : i < 56), (finalize c).1.buffer[i] = 0)

/-- R22, R23: a context that has absorbed the message `m` since it was created counts `8 * n` bits, holds the last
`n mod 64` bytes at the front of its buffer, and has run `floor(n / 64)` transforms, on the message's whole blocks. -/
def Obligations.AbsorbedContextHoldsTheMessage : Prop :=
  ∀ m : List Byte, 8 * m.length < 2 ^ 64 →
    let c := absorbAll created m
    (total c).toNat = 8 * m.length ∧ fill c = m.length % 64 ∧
    c.state = (cutBlocks (m.length / 64) m).foldl compress iv ∧
    ∀ i (h : i < 64), i < fill c → c.buffer[i] = m.getD (64 * (m.length / 64) + i) 0

/-- R109: the digest of the streaming accumulator is the block-wise SHA-256 of the padded message, for every message
the counter can count. -/
def Obligations.StreamingDigestIsBlockwiseDigest : Prop :=
  ∀ m : List Byte, m.length ≤ 2 ^ 61 - 1 → (finalize (absorbAll created m)).2 = sha256 m

/-- R103, R109: the padding has the least `z` that makes whole blocks, and a message of `n` bytes costs
`floor((n + 8) / 64) + 1` transforms, of which `1 + [n mod 64 >= 56]` at finalization. -/
def Obligations.PaddedMessageIsWholeBlocks : Prop :=
  ∀ m : List Byte,
    (paddedMessage m).length % 64 = 0 ∧
    (∀ z, (m.length + 1 + z + 8) % 64 = 0 → zeroFill m.length ≤ z) ∧
    (messageBlocks m).length = (m.length + 8) / 64 + 1 ∧
    (messageBlocks m).length = m.length / 64 + (if 56 ≤ m.length % 64 then 2 else 1)

/-- R43, R44: the digest is the state words as big-endian bytes, and byte `i` of the register is bits
`255-8i : 248-8i` of its port, on both ports; so the port of a serialised state is the words side by side. -/
def Obligations.DigestBytesAndPorts : Prop :=
  (∀ (w : HashWords) (i : Nat) (h : i < 8),
    (serialise w)[4 * i] = w[i].extractLsb' 24 8 ∧ (serialise w)[4 * i + 1] = w[i].extractLsb' 16 8 ∧
    (serialise w)[4 * i + 2] = w[i].extractLsb' 8 8 ∧ (serialise w)[4 * i + 3] = w[i].extractLsb' 0 8) ∧
  (∀ (s : State) (i : Nat) (h : i < 32),
    (outputs s).hdO.extractLsb' (248 - 8 * i) 8 = s.h.hd[i] ∧
    (outputs s).mdO.extractLsb' (248 - 8 * i) 8 = s.m.md[i]) ∧
  (∀ w : HashWords, wire256 (serialise w) = w[0] ++ w[1] ++ w[2] ++ w[3] ++ w[4] ++ w[5] ++ w[6] ++ w[7])

/-- R30, R34, R131: every field of `STATUS` at its bits, the reserved bits 3 and 15:11 read 0, the phase code is never 3
and the fault code never 5, 6 or 7; `status_o` and `fcmd_o` show `STATUS` and `FCMD`. -/
def Obligations.StatusFields : Prop :=
  ∀ s : State,
    (status s).getLsbD 0 = s.h.hused ∧ (status s).getLsbD 1 = s.h.hdv ∧ (status s).getLsbD 2 = s.h.heq ∧
    (status s).getLsbD 3 = false ∧
    (status s).extractLsb' 4 2 = (match s.m.mphase with | .idle => 0 | .keyload => 1 | .ready => 2) ∧
    (status s).getLsbD 6 = s.m.mdv ∧ (status s).getLsbD 7 = s.m.meq ∧
    (status s).extractLsb' 8 3 =
      (match s.fcode with | .none => 0 | .illegal => 1 | .hUsed => 2 | .mSeq => 3 | .cntOvf => 4) ∧
    (status s).extractLsb' 11 5 = 0 ∧
    (status s).extractLsb' 4 2 ≠ 3 ∧ ((status s).extractLsb' 8 3).toNat ≤ 4 ∧
    (outputs s).statusO = status s ∧ (outputs s).fcmdO = s.fcmd

/-! ### The commands of the H group, and XBYTE -/

/-- R104: HINIT, in every phase of H: the created context, the three flags 0, `HD` and everything else kept; straight
after reset it changes nothing. -/
def Obligations.HinitMeaning : Prop :=
  (∀ s : State, s.fcode = .none →
    exec .hinit s = .next { s with h := { s.h with
      ctx := { state := iv, totalHi := 0, totalLo := 0, buffer := Vector.replicate 64 0 },
      hused := false, hdv := false, heq := false } }) ∧
  encode .hinit = 0x1000 ∧ exec .hinit State.reset = .next State.reset

/-- R105: HBYTE b with its checks in order. An open context with room absorbs the byte and nothing else changes. -/
def Obligations.HbyteMeaning : Prop :=
  ∀ (b : Byte) (s : State), s.fcode = .none →
    encode (.hbyte b) = 0x2000 + b.setWidth 16 ∧
    (s.h.hused = true →
      exec (.hbyte b) s = .next { s with fcode := .hUsed, fcmd := 0x2000 + b.setWidth 16 }) ∧
    (s.h.hused = false → canAbsorb s.h.ctx = false →
      exec (.hbyte b) s = .next { s with fcode := .cntOvf, fcmd := 0x2000 + b.setWidth 16 }) ∧
    (s.h.hused = false → canAbsorb s.h.ctx = true →
      exec (.hbyte b) s = .next { s with h := { s.h with ctx := absorb s.h.ctx b } })

/-- R106: HFINAL: an open context is finalized, the digest published, `HUSED = HDV = 1`, `HEQ = 0`; a used one faults
H_USED and keeps `HD`, the flags and the context. -/
def Obligations.HfinalMeaning : Prop :=
  ∀ s : State, s.fcode = .none →
    encode .hfinal = 0x3000 ∧
    (s.h.hused = true → exec .hfinal s = .next { s with fcode := .hUsed, fcmd := 0x3000 }) ∧
    (s.h.hused = false → exec .hfinal s = .next { s with h :=
      { ctx := (finalize s.h.ctx).1, hd := (finalize s.h.ctx).2, hused := true, hdv := true, heq := false } })

/-- R107: HMATCH: as HFINAL, and `HEQ = 1` exactly when all 32 digest bytes equal `EXP`, which is not changed. -/
def Obligations.HmatchMeaning : Prop :=
  ∀ s : State, s.fcode = .none →
    encode .hmatch = 0x4000 ∧
    (s.h.hused = true → exec .hmatch s = .next { s with fcode := .hUsed, fcmd := 0x4000 }) ∧
    (s.h.hused = false → exec .hmatch s = .next { s with h :=
      { ctx := (finalize s.h.ctx).1, hd := (finalize s.h.ctx).2, hused := true, hdv := true,
        heq := decide (∀ i : Fin 32, (finalize s.h.ctx).2[i] = s.exp[i]) } })

/-- R108: XBYTE b: in every phase of both units, `EXP` shifts down by one byte, `b` enters at index 31, and nothing else
changes. -/
def Obligations.XbyteMeaning : Prop :=
  ∀ (b : Byte) (s : State), s.fcode = .none →
    encode (.xbyte b) = 0x5000 + b.setWidth 16 ∧
    ∃ e : Digest, exec (.xbyte b) s = .next { s with exp := e } ∧
      e[31] = b ∧ ∀ i (h : i < 31), e[i] = s.exp[i + 1]

/-- R108, R156: `k <= 32` XBYTE commands leave the old bytes shifted down by `k` and the `k` bytes sent at the high
indices; so 32 of them leave `EXP` equal to the bytes sent, whatever it held, and after more than 32 the last 32
remain. Nothing else changes. -/
def Obligations.XbytesLoadExpectedValue : Prop :=
  ∀ (s : State) (bs : List Byte), s.fcode = .none →
    ∃ e : Digest, runCommands (loadExpected bs) s = .next { s with exp := e } ∧
      ∀ i (h : i < 32), e[i] = (s.exp.toList ++ bs).getD (bs.length + i) 0

/-! ### The commands of the M group -/

/-- R117: KBEGIN, in every phase: key load starts with a created context and the pads of the all-zero key; `M.O`, `M.MD`
and everything else kept. -/
def Obligations.KbeginMeaning : Prop :=
  ∀ s : State, s.fcode = .none →
    encode .kbegin = 0x6000 ∧
    exec .kbegin s = .next { s with m := { s.m with
      mphase := .keyload, inner := created, ik := Vector.replicate 64 0x36, ok := Vector.replicate 64 0x5C,
      mdv := false, meq := false } }

/-- R118: KBYTE b with its checks in order. In key load with room: while fewer than 64 key bytes have come, byte `n` of
both pads is written; always the byte is absorbed into `M.I`; nothing else changes. -/
def Obligations.KbyteMeaning : Prop :=
  ∀ (b : Byte) (s : State), s.fcode = .none →
    encode (.kbyte b) = 0x7000 + b.setWidth 16 ∧
    (s.m.mphase ≠ .keyload →
      exec (.kbyte b) s = .next { s with fcode := .mSeq, fcmd := 0x7000 + b.setWidth 16 }) ∧
    (s.m.mphase = .keyload → canAbsorb s.m.inner = false →
      exec (.kbyte b) s = .next { s with fcode := .cntOvf, fcmd := 0x7000 + b.setWidth 16 }) ∧
    (s.m.mphase = .keyload → canAbsorb s.m.inner = true → ∃ ik ok : Block,
      exec (.kbyte b) s = .next { s with m := { s.m with ik := ik, ok := ok, inner := absorb s.m.inner b } } ∧
      ∀ i (h : i < 64),
        ik[i] = (if i = (total s.m.inner).toNat / 8 then b ^^^ 0x36 else s.m.ik[i]) ∧
        ok[i] = (if i = (total s.m.inner).toNat / 8 then b ^^^ 0x5C else s.m.ok[i]))

/-- R119: KEND: in key load, a key of more than 64 bytes (strictly) is finalized and its digest, zero-extended, makes
the pads; a shorter one keeps them; the inner context is primed with the pads and the phase is READY. `M.O`, `M.MD`,
the flags and everything else kept. -/
def Obligations.KendMeaning : Prop :=
  ∀ s : State, s.fcode = .none →
    encode .kend = 0x8000 ∧
    (s.m.mphase ≠ .keyload → exec .kend s = .next { s with fcode := .mSeq, fcmd := 0x8000 }) ∧
    (s.m.mphase = .keyload → ∃ ik ok : Block,
      exec .kend s = .next { s with m := { s.m with
        ik := ik, ok := ok, inner := absorbAll created ik.toList, mphase := .ready } } ∧
      ((total s.m.inner).toNat ≤ 512 → ik = s.m.ik ∧ ok = s.m.ok) ∧
      (512 < (total s.m.inner).toNat → ∀ i (h : i < 64),
        ik[i] = (if g : i < 32 then (finalize s.m.inner).2[i] ^^^ 0x36 else 0x36) ∧
        ok[i] = (if g : i < 32 then (finalize s.m.inner).2[i] ^^^ 0x5C else 0x5C)))

/-- R120: MBYTE b with its checks in order. In READY with room the byte is absorbed into `M.I` and nothing else
changes. -/
def Obligations.MbyteMeaning : Prop :=
  ∀ (b : Byte) (s : State), s.fcode = .none →
    encode (.mbyte b) = 0x9000 + b.setWidth 16 ∧
    (s.m.mphase ≠ .ready →
      exec (.mbyte b) s = .next { s with fcode := .mSeq, fcmd := 0x9000 + b.setWidth 16 }) ∧
    (s.m.mphase = .ready → canAbsorb s.m.inner = false →
      exec (.mbyte b) s = .next { s with fcode := .cntOvf, fcmd := 0x9000 + b.setWidth 16 }) ∧
    (s.m.mphase = .ready → canAbsorb s.m.inner = true →
      exec (.mbyte b) s = .next { s with m := { s.m with inner := absorb s.m.inner b } })

/-- R121, R116: MFINAL: in READY the inner digest is hashed after `OK` in a fresh outer context, the MAC published with
`MDV = 1`, `MEQ = 0`, and the inner context primed again. The pads, the phase and everything else kept. Where the inner
context holds a message after the pad, the MAC is `Sha256(OK ‖ Sha256(IK ‖ msg))`. -/
def Obligations.MfinalMeaning : Prop :=
  ∀ s : State, s.fcode = .none →
    encode .mfinal = 0xA000 ∧
    (s.m.mphase ≠ .ready → exec .mfinal s = .next { s with fcode := .mSeq, fcmd := 0xA000 }) ∧
    (s.m.mphase = .ready →
      let outer := finalize (absorbAll created (s.m.ok.toList ++ (finalize s.m.inner).2.toList))
      exec .mfinal s = .next { s with m := { s.m with
        inner := absorbAll created s.m.ik.toList, outer := outer.1, md := outer.2, mdv := true, meq := false } } ∧
      ∀ msg : List Byte, msg.length ≤ 2 ^ 61 - 65 → s.m.inner = absorbAll created (s.m.ik.toList ++ msg) →
        outer.2 = macWith s.m.ik s.m.ok msg)

/-- R122, R116: MMATCH: as MFINAL, and `MEQ = 1` exactly when all 32 MAC bytes equal `EXP`, which is not changed. -/
def Obligations.MmatchMeaning : Prop :=
  ∀ s : State, s.fcode = .none →
    encode .mmatch = 0xB000 ∧
    (s.m.mphase ≠ .ready → exec .mmatch s = .next { s with fcode := .mSeq, fcmd := 0xB000 }) ∧
    (s.m.mphase = .ready →
      let outer := finalize (absorbAll created (s.m.ok.toList ++ (finalize s.m.inner).2.toList))
      exec .mmatch s = .next { s with m := { s.m with
        inner := absorbAll created s.m.ik.toList, outer := outer.1, md := outer.2, mdv := true,
        meq := decide (∀ i : Fin 32, outer.2[i] = s.exp[i]) } })

/-- R123: MRESET: in READY the inner context is primed again and nothing else changes; on a unit already primed it
changes nothing. -/
def Obligations.MresetMeaning : Prop :=
  ∀ s : State, s.fcode = .none →
    encode .mreset = 0xC000 ∧
    (s.m.mphase ≠ .ready → exec .mreset s = .next { s with fcode := .mSeq, fcmd := 0xC000 }) ∧
    (s.m.mphase = .ready →
      exec .mreset s = .next { s with m := { s.m with inner := absorbAll created s.m.ik.toList } }) ∧
    (s.m.mphase = .ready → s.m.inner = absorbAll created s.m.ik.toList → exec .mreset s = .next s)

/-- R115: Prime creates the inner context and absorbs the 64 bytes of `IK`, and writes nothing else. It runs exactly one
transform: the counter is 512, the fill 0, the words `Compress(IV, IK)` and the buffer the pad. -/
def Obligations.PrimingTransformsThePadOnce : Prop :=
  ∀ m : HmacUnit, prime m = { m with inner := absorbAll created m.ik.toList } ∧
    (total (prime m).inner).toNat = 512 ∧ fill (prime m).inner = 0 ∧
    (prime m).inner.state = compress iv m.ik ∧ (prime m).inner.buffer = m.ik

/-- R116: the outer pass of MacFinal hashes 96 bytes in two transforms, of `OK` and of the padded inner digest, and its
counter ends at 768; the pads and the phase are kept. -/
def Obligations.MacFinalOuterPass : Prop :=
  ∀ m : HmacUnit,
    (total (macFinal m).outer).toNat = 768 ∧ (macFinal m).md = serialise (macFinal m).outer.state ∧
    (macFinal m).outer.state = compress (compress iv m.ok) (macFinal m).outer.buffer ∧
    (∀ i (h : i < 64), (macFinal m).outer.buffer[i] =
      if g : i < 32 then (finalize m.inner).2[i] else if i = 32 then 0x80 else
        if i = 62 then 0x03 else 0) ∧
    (macFinal m).inner = primedContext m.ik ∧ (macFinal m).ik = m.ik ∧ (macFinal m).ok = m.ok ∧
    (macFinal m).mphase = m.mphase ∧ (macFinal m).mdv = true ∧ (macFinal m).meq = false

/-! ### Frames, phases, independence -/

/-- R36, R132: what the H-group commands and XBYTE leave unchanged, on every path: all of `M`, the input, `EXP` but for
XBYTE, `H` for XBYTE, `HD` and `HDV` but for what R25 lets each command write, and the fault registers unless the
command faults, in which case nothing else changes. -/
def Obligations.HashGroupFrame : Prop :=
  ∀ (i : Instr) (s t : State), (isHGroup i = true ∨ isXbyte i = true) → exec i s = .next t →
    t.m = s.m ∧ t.port = s.port ∧
    (isHGroup i = true → t.exp = s.exp) ∧
    (isXbyte i = true → t.h = s.h ∧ t.fcode = s.fcode ∧ t.fcmd = s.fcmd) ∧
    (i ≠ .hfinal → i ≠ .hmatch → t.h.hd = s.h.hd) ∧
    ((∃ b, i = .hbyte b) → t.h.hused = s.h.hused ∧ t.h.hdv = s.h.hdv ∧ t.h.heq = s.h.heq) ∧
    (i = .hfinal ∨ i = .hmatch → total t.h.ctx = total s.h.ctx) ∧
    (i = .hinit → t.fcode = s.fcode ∧ t.fcmd = s.fcmd) ∧
    ((t.fcode = s.fcode ∧ t.fcmd = s.fcmd) ∨
      (s.fcode = .none ∧ t.fcode ≠ .none ∧ t = { s with fcode := t.fcode, fcmd := encode i }))

/-- R36, R26, R27, R132: what the M-group commands leave unchanged, on every path: all of `H`, `EXP`, the input; of `M`
the fields R26 does not let the command write, the pads above all; and the fault registers unless the command faults,
in which case nothing else changes. -/
def Obligations.HmacGroupFrame : Prop :=
  ∀ (i : Instr) (s t : State), isMGroup i = true → exec i s = .next t →
    t.h = s.h ∧ t.exp = s.exp ∧ t.port = s.port ∧
    (i ≠ .mfinal → i ≠ .mmatch → t.m.outer = s.m.outer ∧ t.m.md = s.m.md) ∧
    (i ≠ .mfinal → i ≠ .mmatch → i ≠ .kbegin → t.m.mdv = s.m.mdv ∧ t.m.meq = s.m.meq) ∧
    (i ≠ .kbegin → i ≠ .kend → t.m.mphase = s.m.mphase) ∧
    ((∃ b, i = .mbyte b) ∨ i = .mfinal ∨ i = .mmatch ∨ i = .mreset → t.m.ik = s.m.ik ∧ t.m.ok = s.m.ok) ∧
    (i = .kbegin → t.fcode = s.fcode ∧ t.fcmd = s.fcmd) ∧
    ((t.fcode = s.fcode ∧ t.fcmd = s.fcmd) ∨
      (s.fcode = .none ∧ t.fcode ≠ .none ∧ t = { s with fcode := t.fcode, fcmd := encode i }))

/-- R146: the phase-transition table of both units. A command that finds its phase and has room completes with the
phases of the table; the other rows are the faults of `Obligations.FaultEntryWritesOnlyFaultRegisters`. -/
def Obligations.PhaseTransitions : Prop :=
  ∀ (i : Instr) (s : State), s.fcode = .none → correctUse i s = true →
    ∃ t, exec i s = .next t ∧ t.fcode = .none ∧
      t.h.hused = (match i with
        | .hinit | .hbyte _ => false
        | .hfinal | .hmatch => true
        | .xbyte _ | .kbegin | .kbyte _ | .kend | .mbyte _ | .mfinal | .mmatch | .mreset => s.h.hused) ∧
      t.m.mphase = (match i with
        | .kbegin | .kbyte _ => .keyload
        | .kend | .mbyte _ | .mfinal | .mmatch | .mreset => .ready
        | .hinit | .hbyte _ | .hfinal | .hmatch | .xbyte _ => s.m.mphase)

/-- R36: what a command does to its own unit depends on that unit and `EXP` alone: two states that agree on these end
agreeing on the unit, and fault alike. -/
def Obligations.UnitsComputeFromTheirOwnState : Prop :=
  ∀ (i : Instr) (s s' : State), s.fcode = .none → s'.fcode = .none → s.exp = s'.exp →
    ∃ t t', exec i s = .next t ∧ exec i s' = .next t' ∧
      (isHGroup i = true → s.h = s'.h → t.h = t'.h ∧ t.fcode = t'.fcode) ∧
      (isMGroup i = true → s.m = s'.m → t.m = t'.m ∧ t.fcode = t'.fcode) ∧
      (isXbyte i = true → t.exp = t'.exp ∧ t.fcode = t'.fcode)

/-- R45, R110, R36: commands of the other unit may stand anywhere in a stream: a fault-free run leaves each unit as the
run of its own commands and the XBYTEs alone leaves it. -/
def Obligations.InterleavingLeavesEachUnitAlone : Prop :=
  ∀ (is : List Instr) (s t : State), runCommands is s = .next t → t.fcode = .none →
    (∃ u, runCommands (is.filter fun i => isHGroup i || isXbyte i) s = .next u ∧
      u.h = t.h ∧ u.exp = t.exp ∧ u.fcode = .none) ∧
    (∃ u, runCommands (is.filter fun i => isMGroup i || isXbyte i) s = .next u ∧
      u.m = t.m ∧ u.exp = t.exp ∧ u.fcode = .none)

/-- R46, R155: no command but HFINAL and HMATCH changes what `hd_o` shows, none but MFINAL and MMATCH what `md_o` shows;
and a change comes in the transition that also sets the valid flag. -/
def Obligations.OnlyFinalizingCommandsChangeDigests : Prop :=
  ∀ (i : Instr) (s t : State), exec i s = .next t →
    (i ≠ .hfinal → i ≠ .hmatch → (outputs t).hdO = (outputs s).hdO) ∧
    (i ≠ .mfinal → i ≠ .mmatch → (outputs t).mdO = (outputs s).mdO) ∧
    (t.h.hd ≠ s.h.hd → t.h.hdv = true) ∧ (t.m.md ≠ s.m.md → t.m.mdv = true)

/-- R140, R146, R148: a step that clears a recorded fault, or that returns `M` to IDLE, is a reset cycle. That the step
which clears them is the very cycle with `rst_i = 1` is the model's reading (log entry 4); the cycles to come are the
model's own field (log entry 1). -/
def Obligations.OnlyResetLeavesFaultOrReturnsToIdle : Prop :=
  ∀ s t : State, step s = .next t →
    ((s.fcode ≠ .none ∧ t.fcode = .none) ∨ (s.m.mphase ≠ .idle ∧ t.m.mphase = .idle)) →
    ∃ c rest, s.port = c :: rest ∧ c.rst = true

/-! ### Command streams -/

/-- R109, R111: from any state with no fault recorded, `HINIT, X(HBYTE, m), HFINAL` ends with the SHA-256 digest of `m`
in `HD`, the flags of a finalized unit, no fault, and `M` and `EXP` as they were. -/
def Obligations.HashStreamComputesSha256 : Prop :=
  ∀ (s : State) (m : List Byte), s.fcode = .none → m.length ≤ 2 ^ 61 - 1 →
    ∃ t, runCommands (hashMessage m) s = .next t ∧ t.h.hd = sha256 m ∧
      t.h.hdv = true ∧ t.h.hused = true ∧ t.h.heq = false ∧ t.fcode = .none ∧ t.m = s.m ∧ t.exp = s.exp

/-- R124: from any state with no fault recorded, `KBEGIN, X(KBYTE, k), KEND` ends with the pads of `key'(k)`, the inner
context primed, READY, both flags 0, no fault, and `H` and `EXP` as they were. -/
def Obligations.KeyStreamDerivesThePads : Prop :=
  ∀ (s : State) (k : List Byte), s.fcode = .none → k.length ≤ 2 ^ 61 - 1 →
    ∃ t, runCommands (hmacNew k) s = .next t ∧
      (∀ i (h : i < 64), t.m.ik[i] = (keyBlock k)[i] ^^^ 0x36 ∧ t.m.ok[i] = (keyBlock k)[i] ^^^ 0x5C) ∧
      t.m.inner = primedContext t.m.ik ∧ t.m.mphase = .ready ∧ t.m.mdv = false ∧ t.m.meq = false ∧
      t.fcode = .none ∧ t.h = s.h ∧ t.exp = s.exp

/-- R125: from any state with no fault recorded, `KBEGIN, X(KBYTE, k), KEND, X(MBYTE, m), MFINAL` ends with `Hmac(k, m)`
in `MD`, `MDV = 1`, `MEQ = 0`, READY. -/
def Obligations.HmacStreamComputesHmac : Prop :=
  ∀ (s : State) (k m : List Byte), s.fcode = .none → k.length ≤ 2 ^ 61 - 1 → m.length ≤ 2 ^ 61 - 65 →
    ∃ t, runCommands (hmacNew k ++ hmacUpdate m ++ hmacFinalize) s = .next t ∧
      t.m.md = hmac k m ∧ t.m.mdv = true ∧ t.m.meq = false ∧ t.m.mphase = .ready ∧ t.fcode = .none

/-- R126: keys with the same `key'` lead to the same state for every message; a key of at most 64 bytes is equivalent
to itself with zero bytes appended up to 64, and a longer key to its digest. -/
def Obligations.EquivalentKeysGiveTheSameMac : Prop :=
  (∀ (s : State) (k k' m : List Byte), s.fcode = .none → k.length ≤ 2 ^ 61 - 1 → k'.length ≤ 2 ^ 61 - 1 →
    m.length ≤ 2 ^ 61 - 65 → keyBlock k = keyBlock k' →
    runCommands (hmacNew k ++ hmacUpdate m ++ hmacFinalize) s =
      runCommands (hmacNew k' ++ hmacUpdate m ++ hmacFinalize) s) ∧
  (∀ (k : List Byte) (z : Nat), k.length + z ≤ 64 → keyBlock (k ++ List.replicate z 0) = keyBlock k) ∧
  (∀ k : List Byte, 64 < k.length → keyBlock k = keyBlock (sha256 k).toList)

/-- R127, R123, R121: a primed unit takes message after message under one key: each MFINAL gives the MAC of its own
message and leaves the unit primed with the same pads, and MRESET takes back a message partly sent. -/
def Obligations.ReuseUnderOneKey : Prop :=
  ∀ (s : State) (m1 m2 z : List Byte), s.fcode = .none → s.m.mphase = .ready →
    s.m.inner = primedContext s.m.ik →
    m1.length ≤ 2 ^ 61 - 65 → m2.length ≤ 2 ^ 61 - 65 → z.length ≤ 2 ^ 61 - 65 →
    runCommands (hmacUpdate z ++ hmacReset) s = .next s ∧
    ∃ t1 t2, runCommands (hmacUpdate m1 ++ hmacFinalize) s = .next t1 ∧
      t1.m.md = macWith s.m.ik s.m.ok m1 ∧ t1.m.inner = primedContext s.m.ik ∧
      runCommands (hmacUpdate m2 ++ hmacFinalize) t1 = .next t2 ∧
      t2.m.md = macWith s.m.ik s.m.ok m2 ∧ t2.m.inner = primedContext s.m.ik ∧
      t2.m.ik = s.m.ik ∧ t2.m.ok = s.m.ok ∧ t2.m.mphase = .ready ∧ t2.m.mdv = true ∧ t2.fcode = .none

/-- R107, R122, R71: `matches(e)` as its pseudo-instruction: with the 32 bytes of `e` loaded, `HEQ` (`MEQ`) answers
whether `e` is the digest (the MAC) of the message sent, for any single-bit difference 0; the digest is published too.
For every message its context can count: `2^61 - 1` bytes for the hash (R101), `2^61 - 65` after the pad (R120). -/
def Obligations.MatchesAnswersEquality : Prop :=
  ∀ (s : State) (e m : List Byte), s.fcode = .none → e.length = 32 →
    (m.length ≤ 2 ^ 61 - 1 →
      ∃ t, runCommands (hashNew ++ hashUpdate m ++ hashMatches e) s = .next t ∧
        (t.h.heq = true ↔ e = (sha256 m).toList) ∧ t.h.hd = sha256 m ∧ t.h.hdv = true ∧ t.fcode = .none) ∧
    (s.m.mphase = .ready → s.m.inner = primedContext s.m.ik → m.length ≤ 2 ^ 61 - 65 →
      ∃ t, runCommands (hmacUpdate m ++ hmacMatches e) s = .next t ∧
        (t.m.meq = true ↔ e = (macWith s.m.ik s.m.ok m).toList) ∧
        t.m.md = macWith s.m.ik s.m.ok m ∧ t.m.mdv = true ∧ t.fcode = .none)

/-- R149, R157: a stream presented at the port, each word accepted at once, runs as the commands one after the other,
and uses the input up. -/
def Obligations.PresentedStreamRunsAsCommands : Prop :=
  ∀ (is : List Instr) (s : State),
    Host.Core.run core is.length { s with port := presented is } = runCommands is { s with port := [] }

/-! ### Invariants -/

/-- R22, R23, R27, R29, R35, R37, R118, R131: the reset state has the engine invariant. -/
def Obligations.ResetHasEngineInv : Prop := EngineInv State.reset

/-- R22, R23, R25 to R27, R29, R37, R118, R131: every step keeps the engine invariant: an open context is the message
absorbed since its creation, a used one what Finalize left; in key load the pads are those of the key so far; in READY
the pads are of one key and the inner context is the primed one plus a message; the fault registers explain
themselves. From every state that has it, not only in runs from reset. -/
def Obligations.StepKeepsEngineInv : Prop := ∀ s t : State, EngineInv s → step s = .next t → EngineInv t
end

