-- ==== Sys2Proof/Config.lean ====
section
/-! DEFINITION. The implementation parameters of spec/00_scope.md R5. "Every parameter is fixed; the model takes
none of them as an argument", so this file holds numbers only and no free value. The one open parameter of the
spec, `T_CMD` (spec/92_eei_decisions.md D22), is time: no rule depends on it and the model has no clock; what it
decides at the port, in which cycle `cmd_ready_o` is high, is arbitrary data of the port list (log entry 2).
The byte values of R5 (`PADBYTE`, `IPAD`, `OPAD`) stand in Sys2Proof/Machine/Constants.lean. -/

namespace Sys2Proof.Config

/-- `WORD`: bits of a state word. -/
def wordBits : Nat := 32

/-- `NSTATE`: words in the running state. -/
def stateWords : Nat := 8

/-- `BLOCK`: bytes in a block. -/
def blockBytes : Nat := 64

/-- `DIGEST`: bytes in a digest. -/
def digestBytes : Nat := 32

/-- `ROUNDS`: rounds per block. -/
def rounds : Nat := 64

/-- `CNT`: bits of the counter `total`. -/
def counterBits : Nat := 64

/-- `LENFIELD`: bytes of the length field of the padding. -/
def lengthFieldBytes : Nat := 8

/-- `KEYBLOCK`: a key strictly longer than this many bytes is hashed first. -/
def keyBlockBytes : Nat := 64

/-- `CMDW`: bits of a command word. -/
def commandBits : Nat := 16

/-- The maximum message length per context, in bytes (R5, R101). -/
def maxMessageBytes : Nat := 2 ^ 61 - 1

end Sys2Proof.Config
end

