-- ==== Sys2Proof/Laws/Context.lean ====
section
/-! SUPPORT. The small lemmas of a context: its counter, its fill and the buffer edits (R22, R94, R100, R102). -/

namespace Sys2Proof.Machine

@[simp] theorem setTotal_state (c : Context) (v : Count) : (setTotal c v).state = c.state := rfl

@[simp] theorem setTotal_buffer (c : Context) (v : Count) : (setTotal c v).buffer = c.buffer := rfl

/-- `total = total_hi * 2^32 + total_lo` (R21). -/
theorem total_toNat (c : Context) : (total c).toNat = c.totalHi.toNat * 2 ^ 32 + c.totalLo.toNat := by
  have h := BitVec.toNat_append c.totalHi c.totalLo
  rw [← Nat.shiftLeft_add_eq_or_of_lt c.totalLo.isLt, Nat.shiftLeft_eq] at h
  exact h

/-- The 64-bit value written to the halves reads back (R21). -/
@[simp] theorem total_setTotal (c : Context) (v : Count) : total (setTotal c v) = v := by
  apply BitVec.eq_of_toNat_eq
  have hv := v.isLt
  simp only [total_toNat, setTotal, BitVec.extractLsb'_toNat, Nat.shiftRight_eq_div_pow]
  omega

@[simp] theorem total_created : total created = 0 := rfl

@[simp] theorem fill_created : fill created = 0 := rfl

/-- "buffer fill count is always in [0,64)" (R22). -/
theorem fill_lt (c : Context) : fill c < 64 := Nat.mod_lt _ (by decide)

/-- A context with the same counter has the same fill (R22). -/
theorem fill_eq_of_total {c d : Context} (h : total c = total d) : fill c = fill d := by
  unfold fill
  rw [h]

@[simp] theorem storeByte_state (c : Context) (b : Byte) : (storeByte c b).state = c.state := rfl

@[simp] theorem storeByte_buffer (c : Context) (b : Byte) :
    (storeByte c b).buffer = putByte c.buffer (fill c) b := rfl

@[simp] theorem storeByte_total (c : Context) (b : Byte) : total (storeByte c b) = total c + 8 :=
  total_setTotal _ _

theorem getElem_putByte (buf : Block) (n : Nat) (b : Byte) (i : Nat) (hi : i < 64) :
    (putByte buf n b)[i] = if n = i then b else buf[i] := by
  simp [putByte, Vector.getElem_setIfInBounds]

theorem getElem_zeroRange (buf : Block) (lo hi i : Nat) (h : i < 64) :
    (zeroRange buf lo hi)[i] = if lo ≤ i ∧ i < hi then 0 else buf[i] := by
  simp [zeroRange]

theorem getElem_putLength (buf : Block) (len : Count) (i : Nat) (h : i < 64) :
    (putLength buf len)[i] = if g : 56 ≤ i then (bytes64 len)[i - 56] else buf[i] := by
  simp [putLength]

theorem getElem_xorPad (key : Block) (p : Byte) (i : Nat) (h : i < 64) : (xorPad key p)[i] = key[i] ^^^ p := by
  simp [xorPad]

theorem getElem_digestPad (d : Digest) (p : Byte) (i : Nat) (h : i < 64) :
    (digestPad d p)[i] = if g : i < 32 then d[i] ^^^ p else p := by
  simp [digestPad]

theorem getElem_shiftIn (e : Digest) (b : Byte) (i : Nat) (h : i < 32) :
    (shiftIn e b)[i] = if g : i < 31 then e[i + 1] else b := by
  simp [shiftIn]

/-- The counter part of absorbing: one byte is 8 bits (R100). -/
@[simp] theorem absorb_total (c : Context) (b : Byte) : total (absorb c b) = total c + 8 := by
  unfold absorb
  split
  · exact storeByte_total c b
  · exact storeByte_total c b

/-- The buffer part of absorbing: the byte goes to the fill index (R100). -/
@[simp] theorem absorb_buffer (c : Context) (b : Byte) :
    (absorb c b).buffer = putByte c.buffer (fill c) b := by
  unfold absorb
  split <;> rfl

/-- The state part of absorbing: one transform when the block is complete, else none (R100). -/
theorem absorb_state (c : Context) (b : Byte) :
    (absorb c b).state =
      if fill c = 63 then compress c.state (putByte c.buffer (fill c) b) else c.state := by
  unfold absorb
  split <;> rfl

/-- Two contexts are equal when their words, counters and buffers are. -/
theorem context_ext {c d : Context} (hs : c.state = d.state) (ht : total c = total d) (hb : c.buffer = d.buffer) :
    c = d := by
  obtain ⟨cs, chi, clo, cb⟩ := c
  obtain ⟨ds, dhi, dlo, db⟩ := d
  have hn := congrArg BitVec.toNat ht
  simp only [total_toNat] at hn
  have hhi : chi = dhi := BitVec.eq_of_toNat_eq (by omega)
  have hlo : clo = dlo := BitVec.eq_of_toNat_eq (by omega)
  simp_all

@[simp] theorem absorbAll_nil (c : Context) : absorbAll c [] = c := rfl

@[simp] theorem absorbAll_cons (c : Context) (b : Byte) (bs : List Byte) :
    absorbAll c (b :: bs) = absorbAll (absorb c b) bs := rfl

theorem absorbAll_append (c : Context) (xs ys : List Byte) :
    absorbAll c (xs ++ ys) = absorbAll (absorbAll c xs) ys := List.foldl_append

/-- The counter after a whole message, modulo `2^64` (R23). -/
theorem total_absorbAll (c : Context) (bs : List Byte) :
    total (absorbAll c bs) = total c + BitVec.ofNat 64 (8 * bs.length) := by
  induction bs generalizing c with
  | nil => simp
  | cons b bs ih =>
    simp only [absorbAll_cons, ih, absorb_total, List.length_cons]
    apply BitVec.eq_of_toNat_eq
    simp
    omega

@[simp] theorem finalize_state (c : Context) : (finalize c).1.state = finalWords c := rfl

@[simp] theorem finalize_buffer (c : Context) : (finalize c).1.buffer = lastBlock c := rfl

@[simp] theorem finalize_digest (c : Context) : (finalize c).2 = serialise (finalWords c) := rfl

end Sys2Proof.Machine
end

