-- ==== Sys2Proof/Laws/Blocks.lean ====
section
/-! SUPPORT. Cutting a byte sequence into blocks (R109): what a longer sequence or one more block does to the cut. -/

namespace Sys2Proof.Machine

theorem getElem_blockOf (bs : List Byte) (i : Nat) (h : i < 64) : (blockOf bs)[i] = bs.getD i 0 := by
  simp [blockOf]

@[simp] theorem length_cutBlocks (n : Nat) (bs : List Byte) : (cutBlocks n bs).length = n := by
  induction n generalizing bs with
  | zero => rfl
  | succ n ih => simp [cutBlocks, ih]

/-- The last of `n + 1` blocks is the one after the first `n`. -/
theorem cutBlocks_succ (n : Nat) (bs : List Byte) :
    cutBlocks (n + 1) bs = cutBlocks n bs ++ [blockOf (bs.drop (64 * n))] := by
  induction n generalizing bs with
  | zero => rfl
  | succ n ih =>
    rw [cutBlocks, ih]
    simp [cutBlocks, Nat.mul_add, Nat.add_comm]

/-- Bytes after the first `n` whole blocks do not change them. -/
theorem cutBlocks_append (n : Nat) (xs ys : List Byte) (h : 64 * n ≤ xs.length) :
    cutBlocks n (xs ++ ys) = cutBlocks n xs := by
  induction n generalizing xs with
  | zero => rfl
  | succ n ih =>
    have e : blockOf (xs ++ ys) = blockOf xs := by
      apply Vector.ext
      intro i hi
      rw [getElem_blockOf _ _ hi, getElem_blockOf _ _ hi, List.getD_append _ _ _ _ (by omega)]
    rw [cutBlocks, cutBlocks, e, List.drop_append_of_le_length (by omega), ih _ (by simp; omega)]

/-- A block is the cut of its own bytes. -/
theorem blockOf_toList (b : Block) : blockOf b.toList = b := by
  apply Vector.ext
  intro i hi
  simp [getElem_blockOf, hi]

end Sys2Proof.Machine
end

