-- ==== Sys2Proof/Laws/Decode.lean ====
section
/-! SUPPORT. The fields of a command word as numbers, and the fields of a word made from them (R64). -/

namespace Sys2Proof

theorem opField_toNat (w : CmdWord) : (opField w).toNat = w.toNat / 4096 := by
  have := w.isLt
  simp only [opField, BitVec.extractLsb'_toNat, Nat.shiftRight_eq_div_pow]
  omega

theorem rsvField_toNat (w : CmdWord) : (rsvField w).toNat = w.toNat / 256 % 16 := by
  simp only [rsvField, BitVec.extractLsb'_toNat, Nat.shiftRight_eq_div_pow]

theorem dataField_toNat (w : CmdWord) : (dataField w).toNat = w.toNat % 256 := by
  simp only [dataField, BitVec.extractLsb'_toNat, Nat.shiftRight_eq_div_pow]
  omega

theorem wordOf_toNat (op : BitVec 4) (b : Byte) : (wordOf op b).toNat = 4096 * op.toNat + b.toNat := by
  have hb := b.isLt
  have h : (wordOf op b).toNat = (op.toNat <<< 4 ||| 0) <<< 8 ||| b.toNat :=
    (BitVec.toNat_append (op ++ (0 : BitVec 4)) b).trans
      (congrArg (fun n => n <<< 8 ||| b.toNat) (BitVec.toNat_append op (0 : BitVec 4)))
  rw [h, ← Nat.shiftLeft_add_eq_or_of_lt hb, Nat.or_zero, Nat.shiftLeft_eq, Nat.shiftLeft_eq]
  omega

/-- A word is its three fields (R64). -/
theorem word_eq_of_fields {w v : CmdWord} (ho : opField w = opField v) (hr : rsvField w = rsvField v)
    (hd : dataField w = dataField v) : w = v := by
  have a := congrArg BitVec.toNat ho
  have b := congrArg BitVec.toNat hr
  have c := congrArg BitVec.toNat hd
  simp only [opField_toNat, rsvField_toNat, dataField_toNat] at a b c
  apply BitVec.eq_of_toNat_eq
  omega

theorem opField_wordOf (op : BitVec 4) (b : Byte) : opField (wordOf op b) = op := by
  have := b.isLt
  apply BitVec.eq_of_toNat_eq
  rw [opField_toNat, wordOf_toNat]
  omega

theorem rsvField_wordOf (op : BitVec 4) (b : Byte) : rsvField (wordOf op b) = 0 := by
  have := b.isLt
  apply BitVec.eq_of_toNat_eq
  rw [rsvField_toNat, wordOf_toNat]
  simp
  omega

theorem dataField_wordOf (op : BitVec 4) (b : Byte) : dataField (wordOf op b) = b := by
  have := b.isLt
  apply BitVec.eq_of_toNat_eq
  rw [dataField_toNat, wordOf_toNat]
  omega

/-- What decoding a format N word can answer: its command when the data field is zero, else the error (R67). -/
theorem formatN_eq_cmd {w : CmdWord} {i j : Instr} : formatN w i = .cmd j ↔ dataField w = 0 ∧ j = i := by
  unfold formatN
  split <;> simp_all [eq_comm]

end Sys2Proof
end

