-- ==== Sys2Proof/Laws/State.lean ====
section
/-! SUPPORT. One lemma per field per update of State, so that no later proof unfolds a record update. -/

namespace Sys2Proof.Machine

@[simp] theorem setH_h (s : State) (h : HashUnit) : (setH s h).h = h := rfl
@[simp] theorem setH_m (s : State) (h : HashUnit) : (setH s h).m = s.m := rfl
@[simp] theorem setH_exp (s : State) (h : HashUnit) : (setH s h).exp = s.exp := rfl
@[simp] theorem setH_fcode (s : State) (h : HashUnit) : (setH s h).fcode = s.fcode := rfl
@[simp] theorem setH_fcmd (s : State) (h : HashUnit) : (setH s h).fcmd = s.fcmd := rfl
@[simp] theorem setH_port (s : State) (h : HashUnit) : (setH s h).port = s.port := rfl

@[simp] theorem setM_h (s : State) (m : HmacUnit) : (setM s m).h = s.h := rfl
@[simp] theorem setM_m (s : State) (m : HmacUnit) : (setM s m).m = m := rfl
@[simp] theorem setM_exp (s : State) (m : HmacUnit) : (setM s m).exp = s.exp := rfl
@[simp] theorem setM_fcode (s : State) (m : HmacUnit) : (setM s m).fcode = s.fcode := rfl
@[simp] theorem setM_fcmd (s : State) (m : HmacUnit) : (setM s m).fcmd = s.fcmd := rfl
@[simp] theorem setM_port (s : State) (m : HmacUnit) : (setM s m).port = s.port := rfl

@[simp] theorem setExp_h (s : State) (e : Digest) : (setExp s e).h = s.h := rfl
@[simp] theorem setExp_m (s : State) (e : Digest) : (setExp s e).m = s.m := rfl
@[simp] theorem setExp_exp (s : State) (e : Digest) : (setExp s e).exp = e := rfl
@[simp] theorem setExp_fcode (s : State) (e : Digest) : (setExp s e).fcode = s.fcode := rfl
@[simp] theorem setExp_fcmd (s : State) (e : Digest) : (setExp s e).fcmd = s.fcmd := rfl
@[simp] theorem setExp_port (s : State) (e : Digest) : (setExp s e).port = s.port := rfl

@[simp] theorem setFault_h (s : State) (code : FaultCode) (w : CmdWord) : (setFault s code w).h = s.h := rfl
@[simp] theorem setFault_m (s : State) (code : FaultCode) (w : CmdWord) : (setFault s code w).m = s.m := rfl
@[simp] theorem setFault_exp (s : State) (code : FaultCode) (w : CmdWord) : (setFault s code w).exp = s.exp := rfl
@[simp] theorem setFault_fcode (s : State) (code : FaultCode) (w : CmdWord) : (setFault s code w).fcode = code := rfl
@[simp] theorem setFault_fcmd (s : State) (code : FaultCode) (w : CmdWord) : (setFault s code w).fcmd = w := rfl
@[simp] theorem setFault_port (s : State) (code : FaultCode) (w : CmdWord) : (setFault s code w).port = s.port := rfl

@[simp] theorem setPort_h (s : State) (p : List PortCycle) : (setPort s p).h = s.h := rfl
@[simp] theorem setPort_m (s : State) (p : List PortCycle) : (setPort s p).m = s.m := rfl
@[simp] theorem setPort_exp (s : State) (p : List PortCycle) : (setPort s p).exp = s.exp := rfl
@[simp] theorem setPort_fcode (s : State) (p : List PortCycle) : (setPort s p).fcode = s.fcode := rfl
@[simp] theorem setPort_fcmd (s : State) (p : List PortCycle) : (setPort s p).fcmd = s.fcmd := rfl
@[simp] theorem setPort_port (s : State) (p : List PortCycle) : (setPort s p).port = p := rfl

@[simp] theorem raiseFault_h (code : FaultCode) (w : CmdWord) (s : State) : (raiseFault code w s).h = s.h := rfl
@[simp] theorem raiseFault_m (code : FaultCode) (w : CmdWord) (s : State) : (raiseFault code w s).m = s.m := rfl
@[simp] theorem raiseFault_exp (code : FaultCode) (w : CmdWord) (s : State) : (raiseFault code w s).exp = s.exp := rfl
@[simp] theorem raiseFault_fcode (code : FaultCode) (w : CmdWord) (s : State) : (raiseFault code w s).fcode = code := rfl
@[simp] theorem raiseFault_fcmd (code : FaultCode) (w : CmdWord) (s : State) : (raiseFault code w s).fcmd = w := rfl
@[simp] theorem raiseFault_port (code : FaultCode) (w : CmdWord) (s : State) : (raiseFault code w s).port = s.port := rfl

@[simp] theorem resetEngine_h (s : State) : (resetEngine s).h = State.reset.h := rfl
@[simp] theorem resetEngine_m (s : State) : (resetEngine s).m = State.reset.m := rfl
@[simp] theorem resetEngine_exp (s : State) : (resetEngine s).exp = State.reset.exp := rfl
@[simp] theorem resetEngine_fcode (s : State) : (resetEngine s).fcode = FaultCode.none := rfl
@[simp] theorem resetEngine_fcmd (s : State) : (resetEngine s).fcmd = 0 := rfl
@[simp] theorem resetEngine_port (s : State) : (resetEngine s).port = s.port := rfl

@[simp] theorem setPort_self (s : State) : setPort s s.port = s := rfl

@[simp] theorem setPort_setPort (s : State) (p q : List PortCycle) : setPort (setPort s p) q = setPort s q := rfl

/-- Two states are equal when their six fields are. -/
theorem state_ext {s t : State} (hh : s.h = t.h) (hm : s.m = t.m) (he : s.exp = t.exp) (hc : s.fcode = t.fcode)
    (hw : s.fcmd = t.fcmd) (hp : s.port = t.port) : s = t := by
  cases s
  cases t
  simp_all

end Sys2Proof.Machine
end

