-- ==== Sys2Proof/Laws/Ops.lean ====
section
/-! SUPPORT. One lemma per shared operation that says everything it can do, so that no later proof unfolds it. -/

namespace Sys2Proof.Machine

theorem locked_eq_false_iff (s : State) : locked s = false ↔ s.fcode = .none := by
  simp [locked]

theorem locked_eq_true_iff (s : State) : locked s = true ↔ s.fcode ≠ .none := by
  simp [locked]

/-- Under the lock nothing changes; else the command goes on (R133). -/
theorem underLock_cases (s after : State) :
    (s.fcode ≠ .none ∧ underLock s after = s) ∨ (s.fcode = .none ∧ underLock s after = after) := by
  unfold underLock
  by_cases h : s.fcode = .none
  · exact .inr ⟨h, by simp [locked, h]⟩
  · exact .inl ⟨h, by simp [locked, h]⟩

theorem underLock_of_free {s : State} (h : s.fcode = .none) (after : State) : underLock s after = after := by
  simp [underLock, locked, h]

theorem underLock_of_locked {s : State} (h : s.fcode ≠ .none) (after : State) : underLock s after = s := by
  simp [underLock, locked, h]

/-- The H phase check: the fault H_USED or the rest of the command (R136). -/
theorem requireUnused_cases (w : CmdWord) (s after : State) :
    (s.h.hused = true ∧ requireUnused w s after = raiseFault .hUsed w s) ∨
      (s.h.hused = false ∧ requireUnused w s after = after) := by
  unfold requireUnused
  cases h : s.h.hused
  · exact .inr ⟨rfl, rfl⟩
  · exact .inl ⟨rfl, rfl⟩

/-- The M phase check: the fault M_SEQ or the rest of the command (R137). -/
theorem requirePhase_cases (p : Phase) (w : CmdWord) (s after : State) :
    (s.m.mphase ≠ p ∧ requirePhase p w s after = raiseFault .mSeq w s) ∨
      (s.m.mphase = p ∧ requirePhase p w s after = after) := by
  unfold requirePhase
  by_cases h : s.m.mphase = p
  · exact .inr ⟨h, if_pos h⟩
  · exact .inl ⟨h, if_neg h⟩

/-- The counter check: the fault CNT_OVF or the rest of the command (R138). -/
theorem requireRoom_cases (c : Context) (w : CmdWord) (s after : State) :
    (canAbsorb c = false ∧ requireRoom c w s after = raiseFault .cntOvf w s) ∨
      (canAbsorb c = true ∧ requireRoom c w s after = after) := by
  unfold requireRoom
  cases h : canAbsorb c
  · exact .inl ⟨rfl, rfl⟩
  · exact .inr ⟨rfl, rfl⟩

/-- Everything an accepted word can meet before its command runs (R69, R133). -/
theorem receiveWord_cases (w : CmdWord) (s : State) :
    (s.fcode ≠ .none ∧ receiveWord w s = .settled s) ∨
      (s.fcode = .none ∧ (∃ why, decode w = .illegal why) ∧ receiveWord w s = .settled (raiseFault .illegal w s)) ∨
      (s.fcode = .none ∧ ∃ i, decode w = .cmd i ∧ receiveWord w s = .run i s) := by
  unfold receiveWord
  by_cases h : s.fcode = .none
  · rw [if_neg (by simp [locked, h])]
    cases d : decode w with
    | illegal why => exact .inr (.inl ⟨h, ⟨why, rfl⟩, rfl⟩)
    | cmd i => exact .inr (.inr ⟨h, i, rfl, rfl⟩)
  · exact .inl ⟨h, by simp [locked, h]⟩

/-- Everything a port cycle can be: none left, a reset, a quiet cycle, or an accepted word (R148, R149). -/
theorem fetch_cases (s : State) :
    (s.port = [] ∧ fetch s = .settled s) ∨
      (∃ c rest, s.port = c :: rest ∧ c.rst = true ∧ fetch s = .settled (resetEngine (setPort s rest))) ∨
      (∃ c rest, s.port = c :: rest ∧ c.rst = false ∧ accepts c = false ∧ fetch s = .settled (setPort s rest)) ∨
      (∃ c rest, s.port = c :: rest ∧ c.rst = false ∧ accepts c = true ∧
        fetch s = receiveWord c.cmd (setPort s rest)) := by
  unfold fetch
  cases hp : s.port with
  | nil => exact .inl ⟨rfl, rfl⟩
  | cons c rest =>
    cases hr : c.rst
    · cases ha : accepts c
      · exact .inr (.inr (.inl ⟨c, rest, rfl, hr, ha, by simp [hr, ha]⟩))
      · exact .inr (.inr (.inr ⟨c, rest, rfl, hr, ha, by simp [hr, ha]⟩))
    · exact .inr (.inl ⟨c, rest, rfl, hr, by simp [hr]⟩)

@[simp] theorem prime_ik (m : HmacUnit) : (prime m).ik = m.ik := rfl
@[simp] theorem prime_ok (m : HmacUnit) : (prime m).ok = m.ok := rfl
@[simp] theorem prime_outer (m : HmacUnit) : (prime m).outer = m.outer := rfl
@[simp] theorem prime_mphase (m : HmacUnit) : (prime m).mphase = m.mphase := rfl
@[simp] theorem prime_mdv (m : HmacUnit) : (prime m).mdv = m.mdv := rfl
@[simp] theorem prime_meq (m : HmacUnit) : (prime m).meq = m.meq := rfl
@[simp] theorem prime_md (m : HmacUnit) : (prime m).md = m.md := rfl
@[simp] theorem prime_inner (m : HmacUnit) : (prime m).inner = primedContext m.ik := rfl

@[simp] theorem macFinal_ik (m : HmacUnit) : (macFinal m).ik = m.ik := rfl
@[simp] theorem macFinal_ok (m : HmacUnit) : (macFinal m).ok = m.ok := rfl
@[simp] theorem macFinal_mphase (m : HmacUnit) : (macFinal m).mphase = m.mphase := rfl
@[simp] theorem macFinal_mdv (m : HmacUnit) : (macFinal m).mdv = true := rfl
@[simp] theorem macFinal_meq (m : HmacUnit) : (macFinal m).meq = false := rfl
@[simp] theorem macFinal_inner (m : HmacUnit) : (macFinal m).inner = primedContext m.ik := rfl

/-- The comparison holds exactly when all 32 bytes agree (R107). -/
theorem digestEq_iff (d e : Digest) : digestEq d e = true ↔ d = e := by
  simp only [digestEq, List.all_eq_true, List.mem_finRange, forall_const, beq_iff_eq]
  constructor
  · intro h
    apply Vector.ext
    intro i hi
    exact h ⟨i, hi⟩
  · intro h i
    rw [h]

end Sys2Proof.Machine
end

