-- ==== Sys2Proof/Laws/PerInstr.lean ====
section
/-! SUPPORT. Statements made per instruction. EncodeLegal: the encoding of every command is a legal word by the three
checks of R67, which are written apart from the encoder. -/

namespace Sys2Proof.Laws.EncodeLegal

/-- The command's own word is legal (R67). -/
def Statement (i : Instr) : Prop := WellFormed.wordLegal (encode i) = true

theorem hinit : Statement .hinit := rfl

theorem hbyte (b : Byte) : Statement (.hbyte b) := by
  revert b
  unfold Statement
  decide

theorem hfinal : Statement .hfinal := rfl

theorem hmatch : Statement .hmatch := rfl

theorem xbyte (b : Byte) : Statement (.xbyte b) := by
  revert b
  unfold Statement
  decide

theorem kbegin : Statement .kbegin := rfl

theorem kbyte (b : Byte) : Statement (.kbyte b) := by
  revert b
  unfold Statement
  decide

theorem kend : Statement .kend := rfl

theorem mbyte (b : Byte) : Statement (.mbyte b) := by
  revert b
  unfold Statement
  decide

theorem mfinal : Statement .mfinal := rfl

theorem mmatch : Statement .mmatch := rfl

theorem mreset : Statement .mreset := rfl

end Sys2Proof.Laws.EncodeLegal
end

