-- ==== Sys2Proof/Laws/Run.lean ====
section
/-! SUPPORT. Running a command stream, one command and one part at a time (R157), and the updates of State written with
`with`. -/

namespace Sys2Proof.Machine

@[simp] theorem runCommands_nil (s : State) : runCommands [] s = .next s := rfl

/-- A stream whose first command answers a next state goes on from it. -/
theorem runCommands_cons {i : Instr} {s t : State} (h : exec i s = .next t) (is : List Instr) :
    runCommands (i :: is) s = runCommands is t := by
  rw [runCommands, h]

/-- A stream in two parts: the second goes on from where the first ends. -/
theorem runCommands_append {is : List Instr} {s t : State} (h : runCommands is s = .next t) (js : List Instr) :
    runCommands (is ++ js) s = runCommands js t := by
  induction is generalizing s with
  | nil =>
    cases h
    rfl
  | cons i is ih =>
    rw [List.cons_append]
    cases hx : exec i s with
    | next u =>
      rw [runCommands_cons hx] at h ⊢
      exact ih h
    | fault r => cases r
    | refused r =>
      rw [runCommands, hx] at h
      cases h

theorem setH_eq (s : State) (h : HashUnit) : setH s h = { s with h := h } := rfl

theorem setM_eq (s : State) (m : HmacUnit) : setM s m = { s with m := m } := rfl

theorem setExp_eq (s : State) (e : Digest) : setExp s e = { s with exp := e } := rfl

theorem raiseFault_eq (code : FaultCode) (w : CmdWord) (s : State) :
    raiseFault code w s = { s with fcode := code, fcmd := w } := rfl

end Sys2Proof.Machine
end

