-- ==== Sys2Proof/Tests/Slice0.lean ====
section
/-! SUPPORT. Tests of single steps on small states. Every expected value is one of the spec's own: spec/95_test_vectors.md
(V1 to V54, P9) or the rule the comment names. After them, for every statement with hypotheses, a witness that meets
them. -/

namespace Sys2Proof.Tests

open Sys2Proof Sys2Proof.Machine

-- One theorem at a time: side by side their threads' stacks together pass the compiler's memory limit.
set_option Elab.async false

/-! ### Helpers -/

/-- The command answers a next state with the property. -/
def endsWith (o : Host.Outcome State Fault Refusal) (p : State → Bool) : Bool :=
  match o with
  | .next t => p t
  | .fault _ => false
  | .refused _ => false

/-- A context with a counter and bytes at the front of its buffer. -/
def contextAt (hi lo : Word) (bs : List Byte) : Context :=
  { created with totalHi := hi, totalLo := lo, buffer := blockOf bs }

/-- A context whose counter is at its maximum (R101). -/
def fullContext : Context := contextAt 0xFFFFFFFF 0xFFFFFFF8 []

/-- The reset state with another context in `H`. -/
def withCtx (c : Context) : State := { State.reset with h := { State.reset.h with ctx := c } }

/-- `H` after HFINAL on the context given; the digest bytes are a sample. -/
def usedWith (c : Context) : State :=
  { State.reset with h := { ctx := c, hused := true, hdv := true, heq := true, hd := Vector.replicate 32 0xAB } }

/-- `M` in a phase with an inner context and the pads of the all-zero key. -/
def phaseWith (p : Phase) (c : Context) : State :=
  { State.reset with m := { State.reset.m with
      mphase := p, inner := c, ik := zeroKeyPad ipad, ok := zeroKeyPad opad } }

/-- The pad of the all-zero key (V47). -/
def zeroKey : Block := zeroKeyPad ipad

/-- In key load, before the first key byte (R117). -/
def loading : State := phaseWith .keyload created

/-- Ready under the empty key, primed (V47). -/
def ready : State := phaseWith .ready (primedContext zeroKey)

/-- Under the fault lock (R133). -/
def lockedState : State := { State.reset with fcode := .hUsed, fcmd := 0x3000 }

/-- `'a'*n`. -/
def letters (n : Nat) : List Byte := List.replicate n 0x61

/-- "abc". -/
def abc : List Byte := [0x61, 0x62, 0x63]

/-- The bytes of a number, most significant first. -/
def bytesOf (n v : Nat) : List Byte := (List.range n).reverse.map fun i => BitVec.ofNat 8 (v / 256 ^ i)

/-- Eight words of a number, most significant first. -/
def wordsOf (v : Nat) : List Word := (List.range 8).reverse.map fun i => BitVec.ofNat 32 (v / 2 ^ (32 * i))

/-- A digest of a number. -/
def digestOf (v : Nat) : Digest := Vector.ofFn fun i => (bytesOf 32 v).getD i.val 0

/-- V1. -/
def emptyDigest : Nat := 0xe3b0c44298fc1c149afbf4c8996fb92427ae41e4649b934ca495991b7852b855

/-- V2. -/
def abcDigest : Nat := 0xba7816bf8f01cfea414140de5dae2223b00361a396177a9cb410ff61f20015ad

/-- V47. -/
def emptyMac : Nat := 0xb613679a0814d9ec772f95d778c35fc5ff1697c493715653c6c712144292c5ad

/-! ### Well-formed words, decoding, encoding -/

-- R67 (a), (b), (c): one word refused by each check; V49.
theorem test_wf_opcode : WellFormed.opcodeAssigned 0xD000 = false ∧ WellFormed.opcodeAssigned 0x0000 = false ∧
    WellFormed.opcodeAssigned 0xFFFF = false ∧ WellFormed.wordLegal 0xD000 = false := by decide

theorem test_wf_rsv : WellFormed.rsvClear 0x2161 = false ∧ WellFormed.wordLegal 0x2161 = false := by decide

theorem test_wf_data : WellFormed.dataClear 0x1001 = false ∧ WellFormed.wordLegal 0x1001 = false := by decide

theorem test_wf_edges : WellFormed.wordLegal 0x1000 = true ∧ WellFormed.wordLegal 0x20FF = true ∧
    WellFormed.wordLegal 0xC000 = true ∧ WellFormed.wordLegal 0x9000 = true := by decide

-- R64, R65: the words of P1, P2, P3, P9 bit by bit, op, rsv, data.
theorem test_decode_h : decode 0b0001000000000000 = .cmd .hinit ∧ decode 0b0010000001100001 = .cmd (.hbyte 0x61) ∧
    decode 0b0011000000000000 = .cmd .hfinal ∧ decode 0b0100000000000000 = .cmd .hmatch := by decide

theorem test_decode_x : decode 0b0101000010101101 = .cmd (.xbyte 0xAD) := by decide

theorem test_decode_k : decode 0b0110000000000000 = .cmd .kbegin ∧ decode 0b0111000001001010 = .cmd (.kbyte 0x4A) ∧
    decode 0b1000000000000000 = .cmd .kend := by decide

theorem test_decode_m : decode 0b1001000001110111 = .cmd (.mbyte 0x77) ∧ decode 0b1010000000000000 = .cmd .mfinal ∧
    decode 0b1011000000000000 = .cmd .mmatch ∧ decode 0b1100000000000000 = .cmd .mreset := by decide

-- R67, V49: rejected by name.
theorem test_decode_illegal : decode 0x0000 = .illegal .reservedOpcode ∧ decode 0x1001 = .illegal .dataField ∧
    decode 0x2161 = .illegal .reservedField ∧ decode 0xD000 = .illegal .reservedOpcode ∧
    decode 0xE000 = .illegal .reservedOpcode ∧ decode 0xF000 = .illegal .reservedOpcode := by decide

theorem test_encode : encode (.hbyte 0x61) = 0x2061 ∧ encode .mreset = 0xC000 ∧ encode (.kbyte 0xFF) = 0x70FF := by decide

theorem test_decodeTableWord : decodeTableWord 16 0x2061 = some (.hbyte 0x61) ∧ decodeTableWord 16 0x2161 = none ∧
    decodeTableWord 17 0x12061 = none := by decide

-- R70.
theorem test_assembler : assembleLine "HBYTE 0x61".toList = some [.hbyte 0x61] ∧
    assembleLine "HBYTE 'a' ; the same".toList = some [.hbyte 0x61] ∧
    assembleLine "; only a comment".toList = some [] ∧ assembleLine "HFINAL".toList = some [.hfinal] ∧
    assembleLine "HFINAL 0x00".toList = none ∧ assembleLine "HBYTE".toList = none := by decide

-- R71: the terminator is not sent; an empty update is no command (R72).
theorem test_textBytes : hashUpdateStr [0x61, 0x62, 0x00, 0x63] = [.hbyte 0x61, .hbyte 0x62] ∧
    hmacUpdateStr [0x00] = [] := by decide

/-! ### Arithmetic and the transform: V3 to V12 -/

theorem test_v4_add : (0xFFFFFFFF : Word) + 0x00000001 = 0 ∧ (0x80000000 : Word) + 0x80000000 = 0 := by decide

theorem test_v5_ch_maj : ch 0xFFFFFFFF 0x12345678 0x9ABCDEF0 = 0x12345678 ∧ maj 0 0x12345678 0x9ABCDEF0 = 0x12345670 ∧
    ch 0xF0F0F0F0 0xFF00FF00 0x0000FFFF = 0xF000FF0F ∧ maj 0xF0F0F0F0 0xFF00FF00 0x0000FFFF = 0xF000FFF0 := by decide

theorem test_v6_sigma : bigSigma0 0x80000000 = 0x20040200 ∧ bigSigma1 0x00000001 = 0x04200080 ∧
    smallSigma0 0x6A09E667 = 0xBA0CF582 ∧ smallSigma1 0x80000000 = 0x00205000 := by decide

/-- The padded "abc" block (V8). -/
def abcBlock : Block := blockOf (bytesOf 4 0x61626380 ++ List.replicate 52 0 ++ bytesOf 8 0x18)

theorem test_v8_schedule : (schedule abcBlock).getD 0 0 = 0x61626380 ∧ (schedule abcBlock).getD 15 0 = 0x18 ∧
    (schedule abcBlock).getD 17 0 = 0x000F0000 ∧ (schedule abcBlock).getD 18 0 = 0x7DA86405 ∧
    (schedule abcBlock).getD 63 0 = 0x12B1EDEB := by decide +kernel

theorem test_v9_round : roundStep (seed iv) 0x428A2F98 0x61626380 =
    ⟨0x5D6AEBCD, 0x6A09E667, 0xBB67AE85, 0x3C6EF372, 0xFA2A4622, 0x510E527F, 0x9B05688C, 0x1F83D9AB⟩ := by decide

theorem test_v10_compress : (compress iv abcBlock).toList = wordsOf abcDigest := by decide +kernel

theorem test_v11_compress : (compress iv (blockOf [])).toList =
    wordsOf 0xda5698be17b9b46962335799779fbeca8ce5d491c0d26243bafef9ea1837a9d8 := by decide +kernel

theorem test_v12_compress : (compress (Vector.replicate 8 0) (Vector.replicate 64 0xFF)).toList =
    wordsOf 0x5081b30efa9924a28412d8aa28bb0c93da147a5ad8e1f92b5af1210d57081603 := by decide +kernel

-- R5: the tables have the fixed shapes.
theorem test_shapes : roundConstants.length = Config.rounds ∧ Config.blockBytes * 8 = keyBlockBits ∧
    Config.maxMessageBytes * 8 = maxTotal.toNat := by decide

/-! ### Contexts: V13, V14, V30, V32 -/

theorem test_v13_absorb : total (absorbAll created abc) = 24 ∧ fill (absorbAll created abc) = 3 ∧
    (absorbAll created abc).buffer.toList.take 4 = [0x61, 0x62, 0x63, 0x00] ∧
    (absorbAll created abc).state = iv := by decide +kernel

theorem test_v14_absorb : total (absorb (contextAt 0 504 (letters 63)) 0x61) = 512 ∧
    fill (absorb (contextAt 0 504 (letters 63)) 0x61) = 0 ∧
    (absorb (contextAt 0 504 (letters 63)) 0x61).state.toList =
      wordsOf 0xdf5bb81ce81e0626fb45a8944fd40f31b25e6816d6d499c1ab90492900635e66 := by decide +kernel

theorem test_v30_one_block : (lastBlock (contextAt 0 440 (letters 55))).toList = letters 55 ++ [0x80] ++ bytesOf 8 0x1b8 ∧
    (lastBlock (contextAt 0 512 (letters 64))).toList = [0x80] ++ List.replicate 55 0 ++ bytesOf 8 0x200 := by
  decide +kernel

theorem test_v30_two_blocks : (lastBlock (contextAt 0 448 (letters 56))).toList = List.replicate 56 0 ++ bytesOf 8 0x1c0 ∧
    (lastBlock (contextAt 0 504 (letters 63))).toList = List.replicate 56 0 ++ bytesOf 8 0x1f8 := by decide +kernel

-- V19 and V21: two transforms, the fill at 56 and at 63.
theorem test_v19_digest : (finalize (contextAt 0 448 (letters 56))).2.toList =
    bytesOf 32 0xb35439a4ac6f0948b6d6f9e3c6af0f5f590ce20f1bde7090ef7970686ec6738a := by decide +kernel

theorem test_v21_digest : (finalize (contextAt 0 504 (letters 63))).2.toList =
    bytesOf 32 0x7d3e74a05d7db15bce4ad9ec0658ea98e3f06eeecf16b4c6fff2da457ddc2f34 := by decide +kernel

-- R94: the carry out of the low half.
theorem test_counter_carry : (absorb (contextAt 5 0xFFFFFFF8 []) 0).totalHi = 6 ∧
    (absorb (contextAt 5 0xFFFFFFF0 []) 0).totalHi = 5 := by decide +kernel

/-! ### One step of each command -/

-- R104: the flags fall, HD keeps its bytes.
theorem test_hinit : endsWith (exec .hinit (usedWith fullContext)) fun t =>
    status t == 0 && t.h.ctx == created && t.h.hd == Vector.replicate 32 0xAB := by decide +kernel

-- R105, its example.
theorem test_hbyte : endsWith (exec (.hbyte 0x61) State.reset) fun t =>
    total t.h.ctx == 8 && t.h.ctx.buffer[0] == 0x61 && status t == 0 := by decide +kernel

-- V53.
theorem test_hbyte_overflow : endsWith (exec (.hbyte 0) (withCtx fullContext)) fun t =>
    status t == 0x0400 && t.fcmd == 0x2000 && t.h.ctx == fullContext := by decide +kernel

-- V1.
theorem test_hfinal : endsWith (exec .hfinal State.reset) fun t =>
    status t == 0x0003 && (outputs t).hdO == BitVec.ofNat 256 emptyDigest := by decide +kernel

-- V50: the flags of the first finalization stay; here HEQ was 1.
theorem test_hfinal_used : endsWith (exec .hfinal (usedWith created)) fun t =>
    status t == 0x0207 && t.fcmd == 0x3000 && t.h.hd == Vector.replicate 32 0xAB := by decide +kernel

-- V34.
theorem test_hmatch_equal :
    endsWith (exec .hmatch { withCtx (contextAt 0 24 abc) with exp := digestOf abcDigest }) fun t =>
      status t == 0x0007 && (outputs t).hdO == BitVec.ofNat 256 abcDigest := by decide +kernel

-- V35: one bit different.
theorem test_hmatch_differs :
    endsWith (exec .hmatch { withCtx (contextAt 0 24 abc) with exp := digestOf (abcDigest - 1) }) fun t =>
      status t == 0x0003 && (outputs t).hdO == BitVec.ofNat 256 abcDigest := by decide +kernel

-- V33, its last command.
theorem test_xbyte : endsWith
    (exec (.xbyte 0x22) { State.reset with
      exp := digestOf 0x02030405060708090a0b0c0d0e0f101112131415161718191a1b1c1d1e1f2021 })
    fun t => t.exp.toList == bytesOf 32 0x030405060708090a0b0c0d0e0f101112131415161718191a1b1c1d1e1f202122 := by
  decide +kernel

-- P3, R117.
theorem test_kbegin : endsWith (exec .kbegin State.reset) fun t =>
    status t == 0x0010 && t.m.ik == Vector.replicate 64 0x36 && t.m.ok == Vector.replicate 64 0x5C := by decide +kernel

-- R118, its example.
theorem test_kbyte : endsWith (exec (.kbyte 0x4A) loading) fun t =>
    t.m.ik[0] == 0x7C && t.m.ok[0] == 0x16 && t.m.ik[1] == 0x36 && total t.m.inner == 8 := by decide +kernel

-- R118: the 65th key byte touches only the key hasher.
theorem test_kbyte_65th : endsWith (exec (.kbyte 0x4A) (phaseWith .keyload (contextAt 0 512 (letters 64)))) fun t =>
    t.m.ik == zeroKey && total t.m.inner == 520 && t.m.inner.buffer[0] == 0x4A := by decide +kernel

-- V47.
theorem test_kend : endsWith (exec .kend loading) fun t =>
    status t == 0x0020 && total t.m.inner == 512 && t.m.inner.state.toList ==
      wordsOf 0xf454dead9725214f90daf2a0df1228ea64e5750fa3924181824a932bf8e04e32 := by decide +kernel

-- V43: a key of 65 bytes, 00 01 ... 40, is hashed.
theorem test_kend_long :
    endsWith (exec .kend (phaseWith .keyload (absorbAll created ((List.range 65).map (BitVec.ofNat 8))))) fun t =>
      t.m.ik.toList == bytesOf 32 0x7dcb1abd5928da4c1cc882bda578d2845f77b434485b39f6433179199d8521b7 ++
        List.replicate 32 0x36 &&
      t.m.inner.state.toList ==
        wordsOf 0xc3e06c4ee3261043264f310c73fb7918ffa75b5d69b9f8411404e5663b22ec8f := by decide +kernel

-- R120, its example.
theorem test_mbyte : endsWith (exec (.mbyte 0x61) ready) fun t =>
    total t.m.inner == 520 && t.m.inner.buffer[0] == 0x61 && status t == 0x0020 := by decide +kernel

-- V51.
theorem test_mbyte_idle : endsWith (exec (.mbyte 0x61) State.reset) fun t =>
    status t == 0x0300 && t.fcmd == 0x9061 && t.m == State.reset.m := by decide +kernel

-- V47.
theorem test_mfinal : endsWith (exec .mfinal ready) fun t =>
    status t == 0x0060 && (outputs t).mdO == BitVec.ofNat 256 emptyMac && total t.m.outer == 768 &&
      t.m.inner == ready.m.inner := by decide +kernel

-- V52b.
theorem test_mfinal_keyload : endsWith (exec .mfinal loading) fun t =>
    status t == 0x0310 && t.fcmd == 0xA000 := by decide +kernel

-- R122, with the MAC of V47.
theorem test_mmatch_equal : endsWith (exec .mmatch { ready with exp := digestOf emptyMac }) fun t =>
    status t == 0x00E0 := by decide +kernel

-- R122: the reset value of EXP is an ordinary mismatch.
theorem test_mmatch_differs : endsWith (exec .mmatch ready) fun t => status t == 0x0060 := by decide +kernel

-- R123, P9: 'z' is dropped.
theorem test_mreset : endsWith (exec .mreset (phaseWith .ready (absorb (primedContext zeroKey) 0x7A))) fun t =>
    t == ready := by decide +kernel

-- V52c.
theorem test_mreset_idle : endsWith (exec .mreset State.reset) fun t =>
    status t == 0x0300 && t.fcmd == 0xC000 := by decide +kernel

/-! ### The port -/

-- V49c: an accepted illegal word.
theorem test_step_illegal : endsWith (step (State.reset.withFetchWord 16 0x2161)) fun t =>
    status t == 0x0100 && t.fcmd == 0x2161 := by decide +kernel

-- V54: under the lock a word is discarded.
theorem test_step_locked : endsWith (step (lockedState.withFetchWord 16 0x1000)) fun t => t == lockedState := by
  decide +kernel

-- R148: the reset cycle.
theorem test_step_reset :
    endsWith (step { lockedState with port := [⟨true, true, true, 0x1000⟩] }) fun t => t == State.reset := by
  decide +kernel

-- R149: not accepted without ready.
theorem test_step_not_ready :
    endsWith (step { State.reset with port := [⟨false, true, false, 0x6000⟩] }) fun t => t == State.reset := by
  decide +kernel

/-! ### Witnesses: concrete states and operands that meet the hypotheses of a statement, each clause of it -/

/-- A cycle that is accepted, one refused by each pin, a reset. -/
def someCycles : List PortCycle :=
  [acceptedCycle 0x2061, ⟨false, false, true, 0x2061⟩, ⟨false, true, false, 0x2061⟩, ⟨true, true, true, 0x2061⟩]

/-- In key load with a full counter. -/
def loadingFull : State := phaseWith .keyload fullContext

/-- Ready with a full counter. -/
def readyFull : State := phaseWith .ready fullContext

/-- The ready state is primed. -/
theorem ready_inner : ready.m.inner = primedContext ready.m.ik := by
  simp only [ready, phaseWith, zeroKey]

theorem witness_ResetCycleRestoresEngine : let c : PortCycle := ⟨true, true, true, 0x2061⟩
    ({ usedWith created with port := c :: someCycles } : State).port = c :: someCycles ∧ c.rst = true := by decide

theorem witness_UnacceptedCycleChangesNothing :
    (∀ c ∈ [(⟨false, false, true, 0x2061⟩ : PortCycle), ⟨false, true, false, 0x2061⟩],
      ({ ready with port := c :: someCycles } : State).port = c :: someCycles ∧ c.rst = false ∧
        (c.valid = false ∨ c.ready = false)) ∧ ready.port = [] := by decide +kernel

theorem witness_StepRunsDecodedInstruction :
    let c := acceptedCycle 0x2061
    ({ ready with port := c :: someCycles } : State).port = c :: someCycles ∧
      c.rst = false ∧ c.valid = true ∧ c.ready = true ∧ decode c.cmd = .cmd (.hbyte 0x61) ∧
      decodeTableWord 16 0xC000 = some .mreset := by decide +kernel

theorem witness_IllegalWordRaisesIllegal : (usedWith created).fcode = .none ∧
    ([0x0FFF, 0xD000, 0x2100, 0x1001, 0xFFFF] : List CmdWord).all fun w =>
      !(acceptedCycle w).rst && (acceptedCycle w).valid && (acceptedCycle w).ready &&
        !WellFormed.wordLegal (acceptedCycle w).cmd := by decide

theorem witness_FaultLockDiscardsEveryWord : lockedState.fcode ≠ .none ∧
    ∀ c ∈ [acceptedCycle 0x2061, acceptedCycle 0xFFFF],
      ({ lockedState with port := [c] } : State).port = c :: [] ∧ c.rst = false := by decide

theorem witness_FaultEntryWritesOnlyFaultRegisters :
    (∀ i ∈ [Instr.hbyte 0, .hfinal, .hmatch],
      (usedWith fullContext).fcode = .none ∧ faultOf i (usedWith fullContext) = .hUsed) ∧
    (∀ i ∈ [Instr.kbyte 0, .kend], readyFull.fcode = .none ∧ faultOf i readyFull = .mSeq) ∧
    (∀ i ∈ [Instr.mbyte 0, .mfinal, .mmatch, .mreset], loadingFull.fcode = .none ∧ faultOf i loadingFull = .mSeq) ∧
    faultOf (.hbyte 0) (withCtx fullContext) = .cntOvf ∧ faultOf (.kbyte 0) loadingFull = .cntOvf ∧
    faultOf (.mbyte 0) readyFull = .cntOvf ∧ (withCtx fullContext).fcode = .none := by decide

-- The counter one byte below its maximum, and the finalizing commands at the maximum.
theorem witness_CorrectUseRaisesNothing :
    (∀ i ∈ [Instr.hinit, .hbyte 0, .xbyte 0, .kbegin], correctUse i (withCtx (contextAt 0xFFFFFFFF 0xFFFFFFF0 [])) = true) ∧
    (∀ i ∈ [Instr.hfinal, .hmatch], correctUse i (withCtx fullContext) = true) ∧
    correctUse (.kbyte 0) (phaseWith .keyload (contextAt 0xFFFFFFFF 0xFFFFFFF0 [])) = true ∧
    correctUse .kend loadingFull = true ∧
    correctUse (.mbyte 0) (phaseWith .ready (contextAt 0xFFFFFFFF 0xFFFFFFF0 [])) = true ∧
    (∀ i ∈ [Instr.mfinal, .mmatch, .mreset], correctUse i readyFull = true) ∧
    (withCtx fullContext).fcode = .none ∧ loadingFull.fcode = .none ∧ readyFull.fcode = .none := by decide

theorem witness_DecodedWordIsItsEncoding : decode 0x20FF = .cmd (.hbyte 0xFF) ∧ decode 0x1000 = .cmd .hinit := by decide

theorem witness_OpcodeMapSelectsTheCommand :
    (∃ r ∈ WellFormed.opcodeMap, r.selects 0x20FF = true) ∧ (∃ r ∈ WellFormed.opcodeMap, r.selects 0xC000 = true) ∧
    operandOf (.hbyte 0xFF) = some 0xFF := by decide

theorem witness_AssemblerReadsBackEveryCommand : ([0x00, 0x20, 0x27, 0x7F] : List Byte).all fun b =>
    operandOf (.mbyte b) == some b && decide (b.toNat < 128) && b != 0x3B := by decide

theorem witness_ResetStateValues : State.reset.m.inner ∈ [State.reset.h.ctx, State.reset.m.inner, State.reset.m.outer] ∧
    (0 < 64 ∧ 63 < 64) ∧ (0 < 32 ∧ 31 < 32) := ⟨by simp, by decide, by decide⟩

theorem witness_ChoiceAndMajorityBits : ∀ i ∈ [0, 31], i < 32 := by decide

theorem witness_SigmaFunctionBits : ∀ i ∈ [0, 31], i < 32 := by decide

theorem witness_DigestBytesAndPorts : (∀ i ∈ [0, 7], i < 8) ∧ ∀ i ∈ [0, 31], i < 32 := by decide

theorem witness_MacFinalOuterPass : ∀ i ∈ [0, 31, 32, 33, 55, 56, 63], i < 64 := by decide

theorem witness_RotateAndShiftBits : ∀ n ∈ [1, 31], ∀ i ∈ [0, 31], 0 < n ∧ n < 32 ∧ i < 32 := by decide

theorem witness_ScheduleRecurrence : (∀ t ∈ [0, 15], t < 16) ∧ (∀ t ∈ [16, 63], 16 ≤ t ∧ t < 64) ∧
    ∀ i (h : i < 64), (blockOf [])[i] = 0 := by
  refine ⟨by decide, by decide, ?_⟩
  intro i h
  simp [blockOf]

theorem witness_CounterCarriesBetweenHalves : ∀ c ∈ [contextAt 0 0xFFFFFFF8 [], contextAt 0xFFFFFFFF 0xFFFFFFF0 []],
    (total c).toNat % 8 = 0 ∧ canAbsorb c = true := by decide

theorem witness_CanAbsorbIsRoomForOneByte : (total fullContext).toNat % 8 = 0 ∧ (total created).toNat % 8 = 0 := by decide

theorem witness_AbsorbStoresCountsAndTransforms : fill created ≠ 63 ∧ fill (contextAt 0 496 []) ≠ 63 ∧
    fill (contextAt 0 504 (letters 63)) = 63 := by decide

theorem witness_FinalizePadsAndTransforms : fill (contextAt 0 440 (letters 55)) ≤ 55 ∧ fill created ≤ 55 ∧
    56 ≤ fill (contextAt 0 448 (letters 56)) ∧ 56 ≤ fill (contextAt 0 504 (letters 63)) := by decide

theorem witness_AbsorbedContextHoldsTheMessage : ∀ n ∈ [0, 55, 63, 64, 65], 8 * (letters n).length < 2 ^ 64 := by decide

theorem witness_StreamingDigestIsBlockwiseDigest :
    ∀ n ∈ [0, 55, 56, 63, 64, 119, 120], (letters n).length ≤ 2 ^ 61 - 1 := by decide

theorem witness_PaddedMessageIsWholeBlocks : ((letters 55).length + 1 + 0 + 8) % 64 = 0 ∧
    ((letters 56).length + 1 + 63 + 8) % 64 = 0 ∧ ((letters 0).length + 1 + (55 + 64) + 8) % 64 = 0 := by decide

theorem witness_HinitMeaning : (usedWith fullContext).fcode = .none ∧ State.reset.fcode = .none := by decide

theorem witness_HbyteMeaning : (usedWith fullContext).fcode = .none ∧ (usedWith fullContext).h.hused = true ∧
    (withCtx fullContext).fcode = .none ∧ (withCtx fullContext).h.hused = false ∧
    canAbsorb (withCtx fullContext).h.ctx = false ∧ State.reset.fcode = .none ∧ State.reset.h.hused = false ∧
    canAbsorb State.reset.h.ctx = true := by decide

theorem witness_HfinalMeaning : (usedWith created).fcode = .none ∧ (usedWith created).h.hused = true ∧
    (withCtx fullContext).fcode = .none ∧ (withCtx fullContext).h.hused = false := by decide

theorem witness_HmatchMeaning : let s : State := { withCtx fullContext with exp := digestOf emptyDigest }
    s.fcode = .none ∧ s.h.hused = false ∧ (usedWith created).fcode = .none ∧ (usedWith created).h.hused = true := by
  decide +kernel

theorem witness_XbyteMeaning : (usedWith fullContext).fcode = .none ∧ loading.fcode = .none ∧ readyFull.fcode = .none := by
  decide

theorem witness_XbytesLoadExpectedValue : State.reset.fcode = .none ∧ loading.fcode = .none := by decide

theorem witness_KbeginMeaning : State.reset.fcode = .none ∧ readyFull.fcode = .none := by decide

theorem witness_KbyteMeaning : State.reset.fcode = .none ∧ State.reset.m.mphase ≠ .keyload ∧
    readyFull.m.mphase ≠ .keyload ∧ loadingFull.fcode = .none ∧ loadingFull.m.mphase = .keyload ∧
    canAbsorb loadingFull.m.inner = false ∧ loading.fcode = .none ∧ loading.m.mphase = .keyload ∧
    canAbsorb loading.m.inner = true := by decide

-- The long-key test at 512 and at 520 bits.
theorem witness_KendMeaning : State.reset.m.mphase ≠ .keyload ∧ readyFull.m.mphase ≠ .keyload ∧
    loading.m.mphase = .keyload ∧ loading.fcode = .none ∧
    (total (phaseWith .keyload (contextAt 0 512 [])).m.inner).toNat ≤ 512 ∧
    512 < (total (phaseWith .keyload (contextAt 0 520 [])).m.inner).toNat := by decide

theorem witness_MbyteMeaning : State.reset.m.mphase ≠ .ready ∧ loading.m.mphase ≠ .ready ∧
    readyFull.fcode = .none ∧ readyFull.m.mphase = .ready ∧ canAbsorb readyFull.m.inner = false ∧
    (phaseWith .ready (contextAt 0 512 [])).m.mphase = .ready ∧
    canAbsorb (phaseWith .ready (contextAt 0 512 [])).m.inner = true := by decide

theorem witness_MfinalMeaning : loading.fcode = .none ∧ loading.m.mphase ≠ .ready ∧ ready.fcode = .none ∧
    ready.m.mphase = .ready ∧ ([] : List Byte).length ≤ 2 ^ 61 - 65 ∧
    ready.m.inner = absorbAll created (ready.m.ik.toList ++ []) :=
  ⟨rfl, by decide, rfl, rfl, by decide, by rw [List.append_nil]; exact ready_inner⟩

theorem witness_MmatchMeaning : State.reset.fcode = .none ∧ State.reset.m.mphase ≠ .ready ∧
    ({ readyFull with exp := Vector.replicate 32 0xFF } : State).fcode = .none ∧
    ({ readyFull with exp := Vector.replicate 32 0xFF } : State).m.mphase = .ready := by decide

theorem witness_MresetMeaning : loading.fcode = .none ∧ loading.m.mphase ≠ .ready ∧ ready.fcode = .none ∧
    ready.m.mphase = .ready ∧ ready.m.inner = absorbAll created ready.m.ik.toList :=
  ⟨rfl, by decide, rfl, rfl, ready_inner⟩

theorem witness_HashGroupFrame : (isHGroup .hinit = true ∨ isXbyte .hinit = true) ∧ isXbyte (.xbyte 0) = true ∧
    (exec (.xbyte 0) State.reset = .next (setExp State.reset (shiftIn State.reset.exp 0))) ∧
    (∃ t, exec .hfinal (usedWith created) = .next t) ∧ (∃ t, exec (.hbyte 0) lockedState = .next t) :=
  ⟨by decide, rfl, rfl, ⟨_, rfl⟩, ⟨_, rfl⟩⟩

theorem witness_HmacGroupFrame : isMGroup .mfinal = true ∧ isMGroup (.mbyte 0) = true ∧ isMGroup .kbegin = true ∧
    (∃ t, exec .mfinal ready = .next t) ∧ (∃ t, exec (.mbyte 0) readyFull = .next t) ∧
    (∃ t, exec .kbegin lockedState = .next t) :=
  ⟨rfl, rfl, rfl, ⟨_, rfl⟩, ⟨_, rfl⟩, ⟨_, rfl⟩⟩

theorem witness_PhaseTransitions : correctUse .mreset readyFull = true ∧ readyFull.fcode = .none ∧
    correctUse .hfinal State.reset = true ∧ State.reset.fcode = .none := by decide

theorem witness_UnitsComputeFromTheirOwnState :
    (withCtx fullContext).fcode = .none ∧ loading.fcode = .none ∧ (withCtx fullContext).exp = loading.exp ∧
    isHGroup .hfinal = true ∧ State.reset.h = loading.h ∧ isMGroup .kend = true ∧
    State.reset.m = (withCtx fullContext).m ∧ isXbyte (.xbyte 1) = true := by decide

theorem witness_InterleavingLeavesEachUnitAlone :
    runCommands [.kbegin, .hinit, .xbyte 7] State.reset =
      .next { loading with exp := shiftIn State.reset.exp 7 } ∧ loading.fcode = .none := ⟨rfl, rfl⟩

theorem witness_OnlyFinalizingCommandsChangeDigests : (∃ t, exec .hinit (usedWith created) = .next t) ∧
    endsWith (exec .hfinal State.reset) (fun t => t.h.hd != State.reset.h.hd) ∧
    endsWith (exec .mfinal ready) (fun t => t.m.md != ready.m.md) :=
  ⟨⟨_, rfl⟩, by decide +kernel, by decide +kernel⟩

theorem witness_OnlyResetLeavesFaultOrReturnsToIdle :
    let s : State := { lockedState with port := [⟨true, false, false, 0⟩] }
    let r : State := { loading with port := [⟨true, false, false, 0⟩] }
    step s = .next State.reset ∧ s.fcode ≠ .none ∧ State.reset.fcode = .none ∧
      step r = .next State.reset ∧ r.m.mphase ≠ .idle ∧ State.reset.m.mphase = .idle :=
  ⟨rfl, by decide, rfl, rfl, by decide, rfl⟩

-- The key lengths 0, 64 (used directly) and 65 (hashed).
theorem witness_KeyStreamDerivesThePads : (usedWith created).fcode = .none ∧ ready.fcode = .none ∧
    ∀ n ∈ [0, 64, 65], (letters n).length ≤ 2 ^ 61 - 1 := ⟨rfl, rfl, by decide⟩

theorem witness_HashStreamComputesSha256 : (usedWith created).fcode = .none ∧
    ∀ n ∈ [0, 55, 56, 64], (letters n).length ≤ 2 ^ 61 - 1 := by decide

theorem witness_HmacStreamComputesHmac : ready.fcode = .none ∧ (letters 65).length ≤ 2 ^ 61 - 1 ∧
    (letters 64).length ≤ 2 ^ 61 - 65 := ⟨rfl, by decide, by decide⟩

-- "Jefe" and "Jefe" with a zero byte (V45); 63 bytes and one zero byte; 65 bytes.
theorem witness_EquivalentKeysGiveTheSameMac : State.reset.fcode = .none ∧
    keyBlock [0x4A, 0x65, 0x66, 0x65] = keyBlock [0x4A, 0x65, 0x66, 0x65, 0x00] ∧
    (letters 63).length + 1 ≤ 64 ∧ 64 < (letters 65).length ∧ abc.length ≤ 2 ^ 61 - 65 := by decide +kernel

theorem witness_ReuseUnderOneKey : ready.fcode = .none ∧ ready.m.mphase = .ready ∧
    ready.m.inner = primedContext ready.m.ik ∧ abc.length ≤ 2 ^ 61 - 65 ∧ (letters 64).length ≤ 2 ^ 61 - 65 :=
  ⟨rfl, rfl, ready_inner, by decide, by decide⟩

-- A message for each half, under its own bound.
theorem witness_MatchesAnswersEquality : (letters 64).length ≤ 2 ^ 61 - 1 ∧ ready.fcode = .none ∧ ready.m.mphase = .ready ∧
    ready.m.inner = primedContext ready.m.ik ∧ (bytesOf 32 emptyMac).length = 32 ∧ abc.length ≤ 2 ^ 61 - 65 :=
  ⟨by decide, rfl, rfl, ready_inner, by decide +kernel, by decide⟩

/-- A state of the invariant with work in both units: a byte of a message in `H`, key load in `M`, an illegal word. -/
def busy : State :=
  { loading with h := { State.reset.h with ctx := absorbAll created [0x61] }, fcode := .illegal, fcmd := 0xD000 }

theorem witness_StepKeepsEngineInv : EngineInv busy ∧ step busy = .next busy := by
  refine ⟨⟨⟨fun _ => ⟨[0x61], rfl, by decide⟩, nofun, rfl, nofun⟩, ⟨nofun, ?_, nofun, nofun⟩, .reservedOpcode, rfl⟩, rfl⟩
  exact fun _ => ⟨rfl, [], ⟨rfl, by decide⟩, by decide +kernel, by decide +kernel⟩

end Sys2Proof.Tests
end

section
/-! PROOFS of the scope family (spec/00_scope.md): a command and a step always end in a next state, a step runs the
decoded command, and the message schedule. The lemmas on `exec`, `step` and `schedule` come first. -/

namespace Sys2Proof.Machine

/-! ### Every command completes (R9, R132): the checks and the effect keep the input still to come -/

theorem underLock_port {s after : State} (h : after.port = s.port) : (underLock s after).port = s.port := by
  obtain ⟨-, e⟩ | ⟨-, e⟩ := underLock_cases s after
  · rw [e]
  · rw [e, h]

theorem requireUnused_port {s after : State} (w : CmdWord) (h : after.port = s.port) :
    (requireUnused w s after).port = s.port := by
  obtain ⟨-, e⟩ | ⟨-, e⟩ := requireUnused_cases w s after
  · rw [e, raiseFault_port]
  · rw [e, h]

theorem requirePhase_port {s after : State} (p : Phase) (w : CmdWord) (h : after.port = s.port) :
    (requirePhase p w s after).port = s.port := by
  obtain ⟨-, e⟩ | ⟨-, e⟩ := requirePhase_cases p w s after
  · rw [e, raiseFault_port]
  · rw [e, h]

theorem requireRoom_port {s after : State} (c : Context) (w : CmdWord) (h : after.port = s.port) :
    (requireRoom c w s after).port = s.port := by
  obtain ⟨-, e⟩ | ⟨-, e⟩ := requireRoom_cases c w s after
  · rw [e, raiseFault_port]
  · rw [e, h]

/-- Every command is its effect behind the fault lock, and that effect does not touch the input still to come. -/
theorem exec_eq_underLock (i : Instr) (s : State) :
    ∃ after : State, exec i s = .next (underLock s after) ∧ after.port = s.port := by
  cases i with
  | hinit => exact ⟨_, rfl, setH_port _ _⟩
  | hbyte b => exact ⟨_, rfl, requireUnused_port _ (requireRoom_port _ _ (setH_port _ _))⟩
  | hfinal => exact ⟨_, rfl, requireUnused_port _ (setH_port _ _)⟩
  | hmatch => exact ⟨_, rfl, requireUnused_port _ (setH_port _ _)⟩
  | xbyte b => exact ⟨_, rfl, setExp_port _ _⟩
  | kbegin => exact ⟨_, rfl, setM_port _ _⟩
  | kbyte b => exact ⟨_, rfl, requirePhase_port _ _ (requireRoom_port _ _ (setM_port _ _))⟩
  | kend => exact ⟨_, rfl, requirePhase_port _ _ (setM_port _ _)⟩
  | mbyte b => exact ⟨_, rfl, requirePhase_port _ _ (requireRoom_port _ _ (setM_port _ _))⟩
  | mfinal => exact ⟨_, rfl, requirePhase_port _ _ (setM_port _ _)⟩
  | mmatch => exact ⟨_, rfl, requirePhase_port _ _ (setM_port _ _)⟩
  | mreset => exact ⟨_, rfl, requirePhase_port _ _ (setM_port _ _)⟩

theorem exec_completes (i : Instr) (s : State) : ∃ t, exec i s = .next t ∧ t.port = s.port := by
  obtain ⟨after, h, hp⟩ := exec_eq_underLock i s
  exact ⟨_, h, underLock_port hp⟩

/-- Under the fault lock a command by itself changes nothing (R133). -/
theorem exec_of_locked {s : State} (h : s.fcode ≠ .none) (i : Instr) : exec i s = .next s := by
  obtain ⟨after, hx, -⟩ := exec_eq_underLock i s
  rw [hx, underLock_of_locked h]

/-! ### A step is a port cycle and the command it delivers (R6, R149) -/

theorem step_of_settled {s t : State} (h : fetch s = .settled t) : step s = .next t := by
  rw [step, h]

theorem step_of_run {s t : State} {i : Instr} (h : fetch s = .run i t) : step s = exec i t := by
  rw [step, h]

theorem step_completes (s : State) : ∃ t, step s = .next t := by
  cases hf : fetch s with
  | settled t => exact ⟨t, step_of_settled hf⟩
  | run i t =>
    obtain ⟨u, hu, -⟩ := exec_completes i t
    exact ⟨u, (step_of_run hf).trans hu⟩

theorem accepts_iff (c : PortCycle) : accepts c = true ↔ c.valid = true ∧ c.ready = true ∧ c.rst = false := by
  simp [accepts, and_assoc]

/-- In an accepted cycle the port hands on the word, with the cycle consumed (R149). -/
theorem fetch_of_accepts {s : State} {c : PortCycle} {rest : List PortCycle} (hp : s.port = c :: rest)
    (ha : accepts c = true) : fetch s = receiveWord c.cmd (setPort s rest) := by
  obtain ⟨-, -, hr⟩ := (accepts_iff c).mp ha
  simp [fetch, hp, hr, ha]

/-- An accepted word that decodes to a command runs it; under the lock both sides leave the state alone. -/
theorem step_of_accepts_decode {s : State} {c : PortCycle} {rest : List PortCycle} {i : Instr}
    (hp : s.port = c :: rest) (ha : accepts c = true) (hd : decode c.cmd = .cmd i) :
    step s = exec i (setPort s rest) := by
  have hf := fetch_of_accepts hp ha
  obtain ⟨hl, hw⟩ | ⟨-, ⟨why, hwhy⟩, -⟩ | ⟨-, j, hj, hw⟩ := receiveWord_cases c.cmd (setPort s rest)
  · rw [step_of_settled (hf.trans hw), exec_of_locked hl]
  · simp [hd] at hwhy
  · obtain rfl : i = j := by simpa [hd] using hj
    exact step_of_run (hf.trans hw)

theorem decodeTableWord_eq_some {nbits w : Nat} {i : Instr} (h : decodeTableWord nbits w = some i) :
    decode (BitVec.ofNat 16 (w % 2 ^ nbits)) = .cmd i := by
  unfold decodeTableWord at h
  split at h
  · split at h
    next j hj =>
      cases h
      exact hj
    next => cases h
  · cases h

/-! ### The message schedule (R42, R87, R88) -/

/-- The bytes of a word assembled by `be32`, first byte most significant (R8). -/
theorem be32_bytes (b0 b1 b2 b3 : Byte) :
    (be32 b0 b1 b2 b3).extractLsb' 24 8 = b0 ∧ (be32 b0 b1 b2 b3).extractLsb' 16 8 = b1 ∧
      (be32 b0 b1 b2 b3).extractLsb' 8 8 = b2 ∧ (be32 b0 b1 b2 b3).extractLsb' 0 8 = b3 := by
  have above {n : Nat} (v : BitVec n) (b : Byte) (k : Nat) :
      (v ++ b).extractLsb' (k + 8) 8 = v.extractLsb' k 8 := by
    rw [BitVec.extractLsb'_append_eq_of_le (Nat.le_add_left 8 k), Nat.add_sub_cancel]
  exact ⟨(above _ b3 16).trans ((above _ b2 8).trans BitVec.extractLsb'_append_eq_left),
    (above _ b3 8).trans ((above _ b2 0).trans BitVec.extractLsb'_append_eq_right),
    (above _ b3 0).trans BitVec.extractLsb'_append_eq_right, BitVec.extractLsb'_append_eq_right⟩

@[simp] theorem length_parseBlock (blk : Block) : (parseBlock blk).length = 16 := by
  simp [parseBlock]

theorem getD_parseBlock (blk : Block) (t : Nat) (h : t < 16) :
    (parseBlock blk).getD t 0 = be32 blk[4 * t] blk[4 * t + 1] blk[4 * t + 2] blk[4 * t + 3] := by
  simp [parseBlock, h]

@[simp] theorem length_extendSchedule (n : Nat) (ws : List Word) : (extendSchedule n ws).length = n + ws.length := by
  induction n generalizing ws with
  | zero => simp [extendSchedule]
  | succ n ih => simp [extendSchedule, ih]; omega

/-- Extending the schedule keeps the words it has. -/
theorem reverse_prefix_extendSchedule (n : Nat) (ws : List Word) :
    ws.reverse <+: (extendSchedule n ws).reverse := by
  rw [List.reverse_prefix]
  induction n generalizing ws with
  | zero => exact List.suffix_rfl
  | succ n ih => exact (List.suffix_cons _ _).trans (ih _)

theorem getD_extendSchedule_of_lt (n : Nat) (ws : List Word) {t : Nat} (h : t < ws.length) :
    (extendSchedule n ws).reverse.getD t 0 = ws.reverse.getD t 0 := by
  obtain ⟨us, hu⟩ := reverse_prefix_extendSchedule n ws
  rw [← hu, List.getD_append _ _ _ _ (by simpa using h)]

/-- The next word by the indices of R88, for the words so far in index order. -/
theorem nextWord_eq (ws : List Word) (h : 16 ≤ ws.length) :
    nextWord ws =
      smallSigma1 (ws.reverse.getD (ws.length - 2) 0) + ws.reverse.getD (ws.length - 7) 0 +
        smallSigma0 (ws.reverse.getD (ws.length - 15) 0) + ws.reverse.getD (ws.length - 16) 0 := by
  have back (k : Nat) (hk : k < 16) : ws.reverse.getD (ws.length - (k + 1)) 0 = ws.getD k 0 := by
    rw [List.getD_reverse _ (by omega)]
    congr 1
    omega
  rw [nextWord, back 1 (by decide), back 6 (by decide), back 14 (by decide), back 15 (by decide)]

/-- Every word after the given ones is the recurrence of R88 on the words before it. -/
theorem extendSchedule_recurrence (n : Nat) (ws : List Word) (hw : 16 ≤ ws.length) (t : Nat) (hlo : ws.length ≤ t)
    (hhi : t < n + ws.length) :
    (extendSchedule n ws).reverse.getD t 0 =
      smallSigma1 ((extendSchedule n ws).reverse.getD (t - 2) 0) + (extendSchedule n ws).reverse.getD (t - 7) 0 +
        smallSigma0 ((extendSchedule n ws).reverse.getD (t - 15) 0) +
        (extendSchedule n ws).reverse.getD (t - 16) 0 := by
  induction n generalizing ws with
  | zero => omega
  | succ n ih =>
    obtain rfl | hlt := Nat.eq_or_lt_of_le hlo
    · have old (k : Nat) (hk : k < ws.length) := getD_extendSchedule_of_lt (n + 1) ws hk
      calc (extendSchedule (n + 1) ws).reverse.getD ws.length 0
        _ = (nextWord ws :: ws).reverse.getD ws.length 0 :=
          getD_extendSchedule_of_lt n (nextWord ws :: ws) (by simp)
        _ = nextWord ws := by simp
        _ = _ := by
          rw [nextWord_eq ws hw, old _ (by omega), old _ (by omega), old _ (by omega), old _ (by omega)]
    · exact ih (nextWord ws :: ws) (by simp; omega) hlt (by simp; omega)

@[simp] theorem length_schedule (blk : Block) : (schedule blk).length = 64 := by
  simp [schedule]

/-- The first sixteen words are the block read big-endian (R42, R87). -/
theorem getD_schedule_of_lt (blk : Block) (t : Nat) (h : t < 16) :
    (schedule blk).getD t 0 = be32 blk[4 * t] blk[4 * t + 1] blk[4 * t + 2] blk[4 * t + 3] := by
  rw [schedule, getD_extendSchedule_of_lt _ _ (by simpa using h), List.reverse_reverse, getD_parseBlock blk t h]

/-- The recurrence of R88 for the words after the first sixteen. -/
theorem schedule_recurrence (blk : Block) (t : Nat) (hlo : 16 ≤ t) (hhi : t < 64) :
    (schedule blk).getD t 0 =
      smallSigma1 ((schedule blk).getD (t - 2) 0) + (schedule blk).getD (t - 7) 0 +
        smallSigma0 ((schedule blk).getD (t - 15) 0) + (schedule blk).getD (t - 16) 0 :=
  extendSchedule_recurrence 48 _ (by simp) t (by simpa using hlo) (by simpa using hhi)

/-- The corner case of R88: a schedule whose first sixteen words are zero is zero. -/
theorem getD_schedule_eq_zero (blk : Block) (h : ∀ t < 16, (schedule blk).getD t 0 = 0) (t : Nat) (ht : t < 64) :
    (schedule blk).getD t 0 = 0 := by
  induction t using Nat.strong_induction_on with
  | _ t ih =>
    obtain hlo | hlo := Nat.lt_or_ge t 16
    · exact h t hlo
    · rw [schedule_recurrence blk t hlo ht, ih (t - 2) (by omega) (by omega), ih (t - 7) (by omega) (by omega),
        ih (t - 15) (by omega) (by omega), ih (t - 16) (by omega) (by omega)]
      decide

/-! ### The obligations -/

/-- Settles O19: the first sixteen words from the block, the others by the induction over the words still to add. -/
theorem scheduleRecurrence : Obligations.ScheduleRecurrence := by
  unfold Obligations.ScheduleRecurrence
  refine ⟨fun blk => ⟨length_schedule blk, fun t h => ?_, schedule_recurrence blk⟩, fun blk hz => ?_⟩
  · rw [getD_schedule_of_lt blk t h]
    exact be32_bytes _ _ _ _
  · refine getD_schedule_eq_zero blk fun t h => ?_
    rw [getD_schedule_of_lt blk t h, hz _ (by omega), hz _ (by omega), hz _ (by omega), hz _ (by omega)]
    decide

/-- Settles O4: an accepted word reaches the decoder, and `withFetchWord` presents one in an accepted cycle. -/
theorem stepRunsDecodedInstruction : Obligations.StepRunsDecodedInstruction := by
  unfold Obligations.StepRunsDecodedInstruction
  constructor
  · intro s c rest i hp hr hv hy hd
    exact step_of_accepts_decode hp ((accepts_iff c).mpr ⟨hv, hy, hr⟩) hd
  · intro s w i h
    exact step_of_accepts_decode (setPort_port _ _) rfl (decodeTableWord_eq_some h)

/-- Settles O9: no command and no port cycle has any other outcome than a next state. -/
theorem everyStepCompletes : Obligations.EveryStepCompletes := by
  unfold Obligations.EveryStepCompletes
  exact fun s => ⟨step_completes s, fun i => exec_completes i s⟩

end Sys2Proof.Machine
end

section
/-! PROOFS of the state family (spec/10_state.md): what a command in correct use makes of each unit and when it faults,
the frames and the independence of the units (R36), the message a context holds (R22, R23), STATUS (R30), and the
invariant that every step keeps. -/

namespace Sys2Proof.Machine

/-! ### What a command makes of each unit (R36) -/

/-- What a command in correct use makes of `H`, with `e` in `EXP` (R104 to R107). -/
def hashEffect (e : Digest) (h : HashUnit) : Instr → HashUnit
  | .hinit => { h with ctx := created, hused := false, hdv := false, heq := false }
  | .hbyte b => { h with ctx := absorb h.ctx b }
  | .hfinal => publishDigest h
  | .hmatch => { publishDigest h with heq := digestEq (finalize h.ctx).2 e }
  | .xbyte _ | .kbegin | .kbyte _ | .kend | .mbyte _ | .mfinal | .mmatch | .mreset => h

/-- What a command in correct use makes of `M`, with `e` in `EXP` (R117 to R123). -/
def hmacEffect (e : Digest) (m : HmacUnit) : Instr → HmacUnit
  | .kbegin => { m with
      mphase := .keyload, inner := created, ik := zeroKeyPad ipad, ok := zeroKeyPad opad, mdv := false, meq := false }
  | .kbyte b => { loadKeyByte m b with inner := absorb m.inner b }
  | .kend => { prime (finishPads m) with mphase := .ready }
  | .mbyte b => { m with inner := absorb m.inner b }
  | .mfinal => macFinal m
  | .mmatch => { macFinal m with meq := digestEq (macFinal m).md e }
  | .mreset => prime m
  | .hinit | .hbyte _ | .hfinal | .hmatch | .xbyte _ => m

/-- What a command makes of `EXP` (R108). -/
def expEffect (e : Digest) : Instr → Digest
  | .xbyte b => shiftIn e b
  | .hinit | .hbyte _ | .hfinal | .hmatch | .kbegin | .kbyte _ | .kend | .mbyte _ | .mfinal | .mmatch | .mreset => e

/-- What a command in correct use makes of the state: each unit from itself and `EXP`, nothing else (R36). -/
def effect (i : Instr) (s : State) : State :=
  { s with h := hashEffect s.exp s.h i, m := hmacEffect s.exp s.m i, exp := expEffect s.exp i }

@[simp] theorem effect_h (i : Instr) (s : State) : (effect i s).h = hashEffect s.exp s.h i := rfl
@[simp] theorem effect_m (i : Instr) (s : State) : (effect i s).m = hmacEffect s.exp s.m i := rfl
@[simp] theorem effect_exp (i : Instr) (s : State) : (effect i s).exp = expEffect s.exp i := rfl
@[simp] theorem effect_fcode (i : Instr) (s : State) : (effect i s).fcode = s.fcode := rfl
@[simp] theorem effect_fcmd (i : Instr) (s : State) : (effect i s).fcmd = s.fcmd := rfl
@[simp] theorem effect_port (i : Instr) (s : State) : (effect i s).port = s.port := rfl

theorem hashEffect_of_not_isHGroup {i : Instr} (hi : isHGroup i = false) (e : Digest) (h : HashUnit) :
    hashEffect e h i = h := by
  cases i with
  | hinit | hbyte | hfinal | hmatch => cases hi
  | xbyte | kbegin | kbyte | kend | mbyte | mfinal | mmatch | mreset => rfl

theorem hmacEffect_of_not_isMGroup {i : Instr} (hi : isMGroup i = false) (e : Digest) (m : HmacUnit) :
    hmacEffect e m i = m := by
  cases i with
  | hinit | hbyte | hfinal | hmatch | xbyte => rfl
  | kbegin | kbyte | kend | mbyte | mfinal | mmatch | mreset => cases hi

theorem expEffect_of_not_isXbyte {i : Instr} (hi : isXbyte i = false) (e : Digest) : expEffect e i = e := by
  cases i with
  | xbyte => cases hi
  | hinit | hbyte | hfinal | hmatch | kbegin | kbyte | kend | mbyte | mfinal | mmatch | mreset => rfl

theorem isMGroup_eq_false {i : Instr} (hi : isHGroup i = true ∨ isXbyte i = true) : isMGroup i = false := by
  cases i with
  | hinit | hbyte | hfinal | hmatch | xbyte => rfl
  | kbegin | kbyte | kend | mbyte | mfinal | mmatch | mreset => simp [isHGroup, isXbyte] at hi

theorem isHGroup_eq_false {i : Instr} (hi : isMGroup i = true ∨ isXbyte i = true) : isHGroup i = false := by
  cases i with
  | hinit | hbyte | hfinal | hmatch => simp [isMGroup, isXbyte] at hi
  | xbyte | kbegin | kbyte | kend | mbyte | mfinal | mmatch | mreset => rfl

theorem isXbyte_eq_false {i : Instr} (hi : isHGroup i = true ∨ isMGroup i = true) : isXbyte i = false := by
  cases i with
  | xbyte => simp [isHGroup, isMGroup] at hi
  | hinit | hbyte | hfinal | hmatch | kbegin | kbyte | kend | mbyte | mfinal | mmatch | mreset => rfl

/-! ### A command has its effect or raises its fault (R130, R131, R134) -/

/-- The checks of a command as one: its effect in correct use, else its fault (R134). -/
def checked (i : Instr) (s after : State) : State :=
  if correctUse i s then after else raiseFault (faultOf i s) (encode i) s

/-- HFINAL and HMATCH ask for an open context alone. -/
theorem requireUnused_eq_checked {i : Instr} {s : State} (hc : correctUse i s = !s.h.hused)
    (hf : faultOf i s = if correctUse i s then .none else .hUsed) (after : State) :
    requireUnused (encode i) s after = checked i s after := by
  obtain ⟨hu, e⟩ | ⟨hu, e⟩ := requireUnused_cases (encode i) s after <;> simp [e, checked, hc, hf, hu]

/-- KEND, MFINAL, MMATCH and MRESET ask for a phase alone. -/
theorem requirePhase_eq_checked {i : Instr} {p : Phase} {s : State} (hc : correctUse i s = (s.m.mphase == p))
    (hf : faultOf i s = if correctUse i s then .none else .mSeq) (after : State) :
    requirePhase p (encode i) s after = checked i s after := by
  obtain ⟨hp, e⟩ | ⟨hp, e⟩ := requirePhase_cases p (encode i) s after <;> simp [e, checked, hc, hf, hp]

/-- KBYTE and MBYTE ask for a phase and then for room. -/
theorem requirePhase_requireRoom_eq_checked {i : Instr} {p : Phase} {s : State}
    (hc : correctUse i s = (s.m.mphase == p && canAbsorb s.m.inner))
    (hf : faultOf i s = if correctUse i s then .none else if s.m.mphase = p then .cntOvf else .mSeq) (after : State) :
    requirePhase p (encode i) s (requireRoom s.m.inner (encode i) s after) = checked i s after := by
  obtain ⟨hp, e⟩ | ⟨hp, e⟩ := requirePhase_cases p (encode i) s (requireRoom s.m.inner (encode i) s after)
  · simp [e, checked, hc, hf, hp]
  · rw [e]
    obtain ⟨hr, e'⟩ | ⟨hr, e'⟩ := requireRoom_cases s.m.inner (encode i) s after <;>
      simp [e', checked, hc, hf, hp, hr]

/-- HBYTE asks for an open context and then for room. -/
theorem requireUnused_requireRoom_eq_checked (b : Byte) (s after : State) :
    requireUnused (encode (.hbyte b)) s (requireRoom s.h.ctx (encode (.hbyte b)) s after) =
      checked (.hbyte b) s after := by
  obtain ⟨hu, e⟩ | ⟨hu, e⟩ :=
    requireUnused_cases (encode (.hbyte b)) s (requireRoom s.h.ctx (encode (.hbyte b)) s after)
  · simp [e, checked, correctUse, faultOf, hu]
  · rw [e]
    obtain ⟨hr, e'⟩ | ⟨hr, e'⟩ := requireRoom_cases s.h.ctx (encode (.hbyte b)) s after <;>
      simp [e', checked, correctUse, faultOf, hu, hr]

/-- With no fault recorded a command has its effect in correct use and raises its fault otherwise. -/
theorem exec_of_free {s : State} (h : s.fcode = .none) (i : Instr) : exec i s = .next (checked i s (effect i s)) := by
  cases i with
  | hinit | xbyte | kbegin => exact congrArg _ (underLock_of_free h _)
  | hbyte b => exact congrArg _ ((underLock_of_free h _).trans (requireUnused_requireRoom_eq_checked b s _))
  | hfinal | hmatch => exact congrArg _ ((underLock_of_free h _).trans (requireUnused_eq_checked rfl rfl _))
  | kend | mfinal | mmatch | mreset =>
    exact congrArg _ ((underLock_of_free h _).trans (requirePhase_eq_checked rfl rfl _))
  | kbyte | mbyte =>
    exact congrArg _ ((underLock_of_free h _).trans (requirePhase_requireRoom_eq_checked rfl rfl _))

/-- Everything a command can do: nothing under the lock, its effect, or its fault. -/
theorem exec_cases {i : Instr} {s t : State} (h : exec i s = .next t) :
    (s.fcode ≠ .none ∧ t = s) ∨
      (s.fcode = .none ∧ correctUse i s = true ∧ t = effect i s) ∨
      (s.fcode = .none ∧ correctUse i s = false ∧ t = raiseFault (faultOf i s) (encode i) s) := by
  by_cases hf : s.fcode = .none
  · rw [exec_of_free hf] at h
    cases hc : correctUse i s
    · exact .inr (.inr ⟨hf, rfl, by simpa [checked, hc] using h.symm⟩)
    · exact .inr (.inl ⟨hf, rfl, by simpa [checked, hc] using h.symm⟩)
  · rw [exec_of_locked hf] at h
    exact .inl ⟨hf, by simpa using h.symm⟩

/-- A command out of place has one of the three faults of R136 to R138. -/
theorem faultOf_of_misuse {i : Instr} {s : State} (h : correctUse i s = false) :
    faultOf i s = .hUsed ∨ faultOf i s = .mSeq ∨ faultOf i s = .cntOvf := by
  unfold faultOf
  rw [if_neg (by simp [h])]
  cases i with
  | hinit | xbyte | kbegin => cases h
  | hfinal | hmatch => exact .inl rfl
  | kend | mfinal | mmatch | mreset => exact .inr (.inl rfl)
  | hbyte => cases s.h.hused <;> simp
  | kbyte => by_cases hp : s.m.mphase = .keyload <;> simp [hp]
  | mbyte => by_cases hp : s.m.mphase = .ready <;> simp [hp]

theorem faultOf_ne_none {i : Instr} {s : State} (h : correctUse i s = false) : faultOf i s ≠ .none := by
  obtain e | e | e := faultOf_of_misuse h <;> simp [e]

/-- HINIT, XBYTE and KBEGIN check nothing, so they are never out of place (R104, R108, R117). -/
theorem not_unchecked_of_misuse {i : Instr} {s : State} (h : correctUse i s = false) :
    isXbyte i = false ∧ i ≠ .hinit ∧ i ≠ .kbegin := by
  cases i with
  | hinit | xbyte | kbegin => cases h
  | hbyte | hfinal | hmatch | kbyte | kend | mbyte | mfinal | mmatch | mreset => simp [isXbyte]

/-- A fault that is recorded stays: no command stream changes anything under the lock (R133). -/
theorem runCommands_of_locked {s : State} (h : s.fcode ≠ .none) (is : List Instr) : runCommands is s = .next s := by
  induction is with
  | nil => rfl
  | cons i is ih => rw [runCommands_cons (exec_of_locked h i), ih]

/-- A run that ends without a fault starts without one. -/
theorem free_of_runCommands {is : List Instr} {s t : State} (hrun : runCommands is s = .next t)
    (ht : t.fcode = .none) : s.fcode = .none := by
  by_contra hne
  rw [runCommands_of_locked hne] at hrun
  cases hrun
  exact hne ht

/-! ### The frames of the commands (R36, R25, R26, R28, R132) -/

/-- Padding does not change the counter (R37, R102). -/
theorem total_finalize (c : Context) : total (finalize c).1 = total c := rfl

/-- KBYTE's pad rule writes the pads alone (R118). -/
@[simp] theorem loadKeyByte_frame (m : HmacUnit) (b : Byte) :
    (loadKeyByte m b).outer = m.outer ∧ (loadKeyByte m b).mphase = m.mphase ∧ (loadKeyByte m b).mdv = m.mdv ∧
      (loadKeyByte m b).meq = m.meq ∧ (loadKeyByte m b).md = m.md := by
  unfold loadKeyByte
  dsimp only
  split <;> simp

/-- KEND's pad rule writes the pads and the key hasher alone (R119). -/
@[simp] theorem finishPads_frame (m : HmacUnit) :
    (finishPads m).outer = m.outer ∧ (finishPads m).mphase = m.mphase ∧ (finishPads m).mdv = m.mdv ∧
      (finishPads m).meq = m.meq ∧ (finishPads m).md = m.md := by
  unfold finishPads
  split <;> simp

/-! ### A unit computes from itself and `EXP` (R36) -/

/-- Only the M group checks `M` (R134). -/
theorem correctUse_congr_h {i : Instr} (hi : isMGroup i = false) {s s' : State} (h : s.h = s'.h) :
    correctUse i s = correctUse i s' := by
  cases i with
  | hinit | hbyte | hfinal | hmatch | xbyte => simp [correctUse, h]
  | kbegin | kbyte | kend | mbyte | mfinal | mmatch | mreset => cases hi

/-- Only the H group checks `H` (R134). -/
theorem correctUse_congr_m {i : Instr} (hi : isHGroup i = false) {s s' : State} (h : s.m = s'.m) :
    correctUse i s = correctUse i s' := by
  cases i with
  | hinit | hbyte | hfinal | hmatch => cases hi
  | xbyte | kbegin | kbyte | kend | mbyte | mfinal | mmatch | mreset => simp [correctUse, h]

theorem faultOf_congr_h {i : Instr} (hi : isMGroup i = false) {s s' : State} (h : s.h = s'.h) :
    faultOf i s = faultOf i s' := by
  cases i with
  | hinit | hbyte | hfinal | hmatch | xbyte => simp [faultOf, correctUse_congr_h hi h, h]
  | kbegin | kbyte | kend | mbyte | mfinal | mmatch | mreset => cases hi

theorem faultOf_congr_m {i : Instr} (hi : isHGroup i = false) {s s' : State} (h : s.m = s'.m) :
    faultOf i s = faultOf i s' := by
  cases i with
  | hinit | hbyte | hfinal | hmatch => cases hi
  | xbyte | kbegin | kbyte | kend | mbyte | mfinal | mmatch | mreset => simp [faultOf, correctUse_congr_m hi h, h]

theorem checked_of_isXbyte {i : Instr} (hi : isXbyte i = true) (s after : State) : checked i s after = after := by
  cases i with
  | xbyte => rfl
  | hinit | hbyte | hfinal | hmatch | kbegin | kbyte | kend | mbyte | mfinal | mmatch | mreset => cases hi

/-- Two states in which the command meets the same check end agreeing on the fault code, and on what `view` shows when
they agree on it before a fault and after the effect. -/
theorem checked_congr {α : Type} (view : State → α) {i : Instr} {s s' : State}
    (hc : correctUse i s = correctUse i s') (hf : faultOf i s = faultOf i s') (hcode : s.fcode = s'.fcode)
    (hfault : ∀ code w, view (raiseFault code w s) = view (raiseFault code w s'))
    (heff : view (effect i s) = view (effect i s')) :
    view (checked i s (effect i s)) = view (checked i s' (effect i s')) ∧
      (checked i s (effect i s)).fcode = (checked i s' (effect i s')).fcode := by
  unfold checked
  rw [← hc, ← hf]
  cases correctUse i s
  · exact ⟨hfault _ _, rfl⟩
  · exact ⟨heff, hcode⟩

/-- A stream that ends without a fault and the part of it that `keep` selects, started where `view` shows the same, end
where `view` shows the same: the other commands do not change what it shows, and the selected ones depend on that
alone. -/
theorem runCommands_filter {α : Type} {view : State → α} {keep : Instr → Bool}
    (hskip : ∀ i s, keep i = false → view (effect i s) = view s)
    (hkeep : ∀ i s s', keep i = true → view s = view s' →
      correctUse i s = correctUse i s' ∧ view (effect i s) = view (effect i s'))
    (is : List Instr) {s s' t : State} (hv : view s = view s') (hs' : s'.fcode = .none)
    (hrun : runCommands is s = .next t) (ht : t.fcode = .none) :
    ∃ u, runCommands (is.filter keep) s' = .next u ∧ view u = view t ∧ u.fcode = .none := by
  induction is generalizing s s' with
  | nil =>
    cases hrun
    exact ⟨s', rfl, hv.symm, hs'⟩
  | cons i is ih =>
    obtain ⟨v, hv1, -⟩ := exec_completes i s
    rw [runCommands_cons hv1] at hrun
    have hvf := free_of_runCommands hrun ht
    obtain ⟨hl, rfl⟩ | ⟨-, hc, rfl⟩ | ⟨-, hc, rfl⟩ := exec_cases hv1
    · exact absurd hvf hl
    · cases hk : keep i
      · rw [List.filter_cons_of_neg (by simp [hk])]
        exact ih ((hskip i s hk).trans hv) hs' hrun
      · obtain ⟨hc', hv'⟩ := hkeep i s s' hk hv
        have hx : exec i s' = .next (effect i s') := by
          rw [exec_of_free hs', checked, if_pos (hc' ▸ hc)]
        rw [List.filter_cons_of_pos hk, runCommands_cons hx]
        exact ih hv' hs' hrun
    · exact absurd hvf (faultOf_ne_none hc)

/-- XBYTE and the H group see and change `H` and `EXP` alone. -/
theorem runCommands_filter_hash {is : List Instr} {s t : State} (hrun : runCommands is s = .next t)
    (ht : t.fcode = .none) :
    ∃ u, runCommands (is.filter fun i => isHGroup i || isXbyte i) s = .next u ∧
      (u.h, u.exp) = (t.h, t.exp) ∧ u.fcode = .none := by
  refine runCommands_filter (view := fun s => (s.h, s.exp)) ?_ ?_ is rfl (free_of_runCommands hrun ht) hrun ht
  · intro i s hi
    obtain ⟨hg, hx⟩ := Bool.or_eq_false_iff.mp hi
    simp [hashEffect_of_not_isHGroup hg, expEffect_of_not_isXbyte hx]
  · intro i s s' hi hv
    obtain ⟨hh, he⟩ := Prod.mk.inj hv
    exact ⟨correctUse_congr_h (isMGroup_eq_false ((Bool.or_eq_true _ _).mp hi)) hh, by simp [hh, he]⟩

/-- XBYTE and the M group see and change `M` and `EXP` alone. -/
theorem runCommands_filter_hmac {is : List Instr} {s t : State} (hrun : runCommands is s = .next t)
    (ht : t.fcode = .none) :
    ∃ u, runCommands (is.filter fun i => isMGroup i || isXbyte i) s = .next u ∧
      (u.m, u.exp) = (t.m, t.exp) ∧ u.fcode = .none := by
  refine runCommands_filter (view := fun s => (s.m, s.exp)) ?_ ?_ is rfl (free_of_runCommands hrun ht) hrun ht
  · intro i s hi
    obtain ⟨hg, hx⟩ := Bool.or_eq_false_iff.mp hi
    simp [hmacEffect_of_not_isMGroup hg, expEffect_of_not_isXbyte hx]
  · intro i s s' hi hv
    obtain ⟨hm, he⟩ := Prod.mk.inj hv
    exact ⟨correctUse_congr_m (isHGroup_eq_false ((Bool.or_eq_true _ _).mp hi)) hm, by simp [hm, he]⟩

/-! ### The message a context holds (R22, R23) -/

theorem absorbAll_concat (c : Context) (m : List Byte) (b : Byte) :
    absorbAll c (m ++ [b]) = absorb (absorbAll c m) b := absorbAll_append c m [b]

/-- The fill is right for every length: the counter's modulus is a whole number of blocks. -/
theorem fill_absorbAll_created (m : List Byte) : fill (absorbAll created m) = m.length % 64 := by
  have ht : (total (absorbAll created m)).toNat = 8 * m.length % 2 ^ 64 := by simp [total_absorbAll]
  rw [fill, ht]
  omega

/-- Storing the next byte behind the bytes of an unfinished block. -/
theorem getElem_putByte_of_holds {buf : Block} {m : List Byte}
    (hold : ∀ i (h : i < 64), i < m.length % 64 → buf[i] = m.getD (64 * (m.length / 64) + i) 0)
    (b : Byte) (i : Nat) (h : i < 64) (hi : i ≤ m.length % 64) :
    (putByte buf (m.length % 64) b)[i] = (m ++ [b]).getD (64 * (m.length / 64) + i) 0 := by
  rw [getElem_putByte _ _ _ _ h]
  have hm := Nat.div_add_mod m.length 64
  obtain hlt | rfl := Nat.lt_or_eq_of_le hi
  · rw [if_neg (by omega), hold i h hlt, List.getD_append _ _ _ _ (by omega)]
  · rw [if_pos rfl, hm]
    simp

theorem getElem_buffer_absorbAll_created (m : List Byte) (i : Nat) (h : i < 64) (hi : i < m.length % 64) :
    (absorbAll created m).buffer[i] = m.getD (64 * (m.length / 64) + i) 0 := by
  induction m using List.reverseRecOn generalizing i with
  | nil => simp at hi
  | append_singleton m b ih =>
    rw [List.length_append, List.length_singleton] at hi ⊢
    rw [absorbAll_concat]
    simp only [absorb_buffer, fill_absorbAll_created]
    rw [getElem_putByte_of_holds ih b i h (by omega), show (m.length + 1) / 64 = m.length / 64 by omega]

/-- The byte that completes a block makes the buffer that block of the message. -/
theorem buffer_absorbAll_created_of_full (m : List Byte) (b : Byte) (hm : m.length % 64 = 63) :
    putByte (absorbAll created m).buffer 63 b = blockOf ((m ++ [b]).drop (64 * (m.length / 64))) := by
  apply Vector.ext
  intro i hi
  have e := getElem_putByte_of_holds (getElem_buffer_absorbAll_created m) b i hi (by omega)
  rw [hm] at e
  rw [e, getElem_blockOf _ _ hi, List.getD_eq_getElem?_getD, List.getD_eq_getElem?_getD, List.getElem?_drop]

theorem state_absorbAll_created (m : List Byte) :
    (absorbAll created m).state = (cutBlocks (m.length / 64) m).foldl compress iv := by
  induction m using List.reverseRecOn with
  | nil => rfl
  | append_singleton m b ih =>
    have old : cutBlocks (m.length / 64) (m ++ [b]) = cutBlocks (m.length / 64) m :=
      cutBlocks_append _ _ _ (Nat.mul_div_le _ _)
    rw [absorbAll_concat, absorb_state, fill_absorbAll_created, ih, List.length_append, List.length_singleton]
    by_cases hm : m.length % 64 = 63
    · rw [if_pos hm, hm, buffer_absorbAll_created_of_full m b hm,
        show (m.length + 1) / 64 = m.length / 64 + 1 by omega, cutBlocks_succ, old, List.foldl_append]
      rfl
    · rw [if_neg hm, show (m.length + 1) / 64 = m.length / 64 by omega, old]

/-! ### STATUS (R30) -/

theorem status_flags (s : State) :
    (status s).getLsbD 0 = s.h.hused ∧ (status s).getLsbD 1 = s.h.hdv ∧ (status s).getLsbD 2 = s.h.heq ∧
      (status s).getLsbD 3 = false ∧ (status s).getLsbD 6 = s.m.mdv ∧ (status s).getLsbD 7 = s.m.meq := by
  refine ⟨?_, ?_, ?_, ?_, ?_, ?_⟩ <;> unfold status
  all_goals
    repeat rw [BitVec.getLsbD_append]
    simp

theorem status_phase (s : State) : (status s).extractLsb' 4 2 = phaseBits s.m.mphase := by
  simp (disch := omega) only [status, BitVec.extractLsb'_append_eq_of_le, Nat.reduceSub]
  exact BitVec.extractLsb'_append_eq_right

theorem status_fault (s : State) : (status s).extractLsb' 8 3 = faultBits s.fcode := by
  simp (disch := omega) only [status, BitVec.extractLsb'_append_eq_of_le, Nat.reduceSub]
  exact BitVec.extractLsb'_append_eq_right

theorem status_reserved (s : State) : (status s).extractLsb' 11 5 = 0 := by
  simp (disch := omega) only [status, BitVec.extractLsb'_append_eq_of_le, Nat.reduceSub]
  decide

theorem phaseBits_ne_three (p : Phase) : phaseBits p ≠ 3 := by cases p <;> decide

theorem faultBits_le_four (c : FaultCode) : (faultBits c).toNat ≤ 4 := by cases c <;> decide

/-! ### An absorbed message and the next byte (R22, R101) -/

theorem Absorbed.total_eq {start c : Context} {m : List Byte} (h : Absorbed start m c) :
    (total c).toNat = (total start).toNat + 8 * m.length := by
  obtain ⟨rfl, hlt⟩ := h
  rw [total_absorbAll, BitVec.toNat_add, BitVec.toNat_ofNat]
  omega

theorem absorbed_nil (start : Context) : Absorbed start [] start :=
  ⟨rfl, by simpa using (total start).isLt⟩

/-- A byte that finds room extends the message: on whole bytes, room means no overflow (R101). -/
theorem Absorbed.concat {start c : Context} {m : List Byte} (h : Absorbed start m c)
    (hbytes : (total start).toNat % 8 = 0) (hroom : canAbsorb c = true) (b : Byte) :
    Absorbed start (m ++ [b]) (absorb c b) := by
  have ht := h.total_eq
  have hne : (total c).toNat ≠ 2 ^ 64 - 8 := fun e =>
    absurd (BitVec.eq_of_toNat_eq e : total c = maxTotal) (by simpa [canAbsorb] using hroom)
  obtain ⟨rfl, hlt⟩ := h
  refine ⟨(absorbAll_concat _ _ _).symm, ?_⟩
  rw [List.length_append, List.length_singleton]
  omega

theorem total_primedContext (ik : Block) : (total (primedContext ik)).toNat = 512 := by
  simp [primedContext, total_absorbAll]

/-! ### The pads of a key (R26, R117 to R119) -/

theorem zeroKeyPad_eq_xorPad (p : Byte) : zeroKeyPad p = xorPad (blockOf []) p := by
  apply Vector.ext
  intro i hi
  simp [zeroKeyPad, getElem_xorPad _ _ _ hi, getElem_blockOf _ _ hi]

/-- The pad of a hashed key is that of the digest as a key (R119, R124). -/
theorem digestPad_eq_xorPad (d : Digest) (p : Byte) : digestPad d p = xorPad (blockOf d.toList) p := by
  apply Vector.ext
  intro i hi
  rw [getElem_digestPad _ _ _ hi, getElem_xorPad _ _ _ hi, getElem_blockOf _ _ hi]
  by_cases h : i < 32 <;> simp [h]

/-- One more key byte within the block replaces the pad byte of a zero (R118). -/
theorem putByte_xorPad_blockOf (k : List Byte) (b p : Byte) :
    putByte (xorPad (blockOf k) p) k.length (b ^^^ p) = xorPad (blockOf (k ++ [b])) p := by
  apply Vector.ext
  intro i hi
  rw [getElem_putByte _ _ _ _ hi, getElem_xorPad _ _ _ hi, getElem_xorPad _ _ _ hi, getElem_blockOf _ _ hi,
    getElem_blockOf _ _ hi]
  obtain hlt | rfl | hgt := Nat.lt_trichotomy i k.length
  · rw [if_neg (by omega), List.getD_append _ _ _ _ hlt]
  · simp
  · rw [if_neg (by omega), List.getD_eq_default _ _ (by omega), List.getD_eq_default _ _ (by simp; omega)]

/-- Key bytes after the block do not change it (R118). -/
theorem blockOf_append_of_le {k : List Byte} (h : 64 ≤ k.length) (ys : List Byte) :
    blockOf (k ++ ys) = blockOf k := by
  apply Vector.ext
  intro i hi
  rw [getElem_blockOf _ _ hi, getElem_blockOf _ _ hi, List.getD_append _ _ _ _ (by omega)]

/-- KBYTE keeps the pads those of the key so far, within the block and beyond it (R118). -/
theorem loadKeyByte_pads {m : HmacUnit} {k : List Byte} (hk : Absorbed created k m.inner)
    (hik : m.ik = xorPad (blockOf k) ipad) (hok : m.ok = xorPad (blockOf k) opad) (b : Byte) :
    (loadKeyByte m b).ik = xorPad (blockOf (k ++ [b])) ipad ∧
      (loadKeyByte m b).ok = xorPad (blockOf (k ++ [b])) opad := by
  have hn : (total m.inner).toNat / 8 = k.length := by
    rw [hk.total_eq]
    simp
  unfold loadKeyByte
  simp only [hn]
  split
  · simp only [hik, hok, putByte_xorPad_blockOf, and_self]
  · rw [blockOf_append_of_le (by omega)]
    exact ⟨hik, hok⟩

/-- KEND leaves the pads of one block-sized key: the key as it came, or its digest (R119). -/
theorem finishPads_pads {m : HmacUnit} {key : Block} (hik : m.ik = xorPad key ipad) (hok : m.ok = xorPad key opad) :
    ∃ key', (finishPads m).ik = xorPad key' ipad ∧ (finishPads m).ok = xorPad key' opad := by
  unfold finishPads
  split
  · exact ⟨_, digestPad_eq_xorPad _ _, digestPad_eq_xorPad _ _⟩
  · exact ⟨key, hik, hok⟩

/-! ### The invariant of each unit is kept by every command in correct use -/

theorem hashInv_finalized {h : HashUnit} (hinv : hashInv h) (hopen : h.hused = false) (eq : Bool) :
    hashInv { publishDigest h with heq := eq } := by
  obtain ⟨hmsg, -, -, -⟩ := hinv
  obtain ⟨m, hm⟩ := hmsg hopen
  exact ⟨nofun, fun _ => ⟨m, h.ctx, hm, rfl, rfl⟩, rfl, fun _ => rfl⟩

theorem hashInv_hashEffect {i : Instr} {s : State} (hinv : hashInv s.h) (hc : correctUse i s = true) :
    hashInv (hashEffect s.exp s.h i) := by
  cases i with
  | hinit => exact ⟨fun _ => ⟨[], absorbed_nil created⟩, nofun, rfl, nofun⟩
  | hbyte b =>
    simp only [correctUse, Bool.and_eq_true, Bool.not_eq_true'] at hc
    obtain ⟨hopen, hroom⟩ := hc
    obtain ⟨hmsg, -, hdv, heq⟩ := hinv
    obtain ⟨m, hm⟩ := hmsg hopen
    exact ⟨fun _ => ⟨m ++ [b], hm.concat rfl hroom b⟩, fun hu => absurd hu (by simp [hashEffect, hopen]), hdv, heq⟩
  | hfinal => exact hashInv_finalized hinv (by simpa [correctUse] using hc) false
  | hmatch => exact hashInv_finalized hinv (by simpa [correctUse] using hc) _
  | xbyte | kbegin | kbyte | kend | mbyte | mfinal | mmatch | mreset => exact hinv

/-- A unit in READY needs only its pads, its message and its flags. -/
theorem hmacInv_of_ready {m : HmacUnit} (hp : m.mphase = .ready) {key : Block} {msg : List Byte}
    (hik : m.ik = xorPad key ipad) (hok : m.ok = xorPad key opad) (hmsg : Absorbed (primedContext m.ik) msg m.inner)
    (hflag : m.meq = true → m.mdv = true) : hmacInv m :=
  ⟨fun h => by simp [hp] at h, fun h => by simp [hp] at h, fun _ => ⟨key, msg, hik, hok, hmsg⟩, hflag⟩

/-- A unit in KEYLOAD needs only its key and its flags. -/
theorem hmacInv_of_keyload {m : HmacUnit} (hp : m.mphase = .keyload) (hdv : m.mdv = false) (heq : m.meq = false)
    {k : List Byte} (hk : Absorbed created k m.inner) (hik : m.ik = xorPad (blockOf k) ipad)
    (hok : m.ok = xorPad (blockOf k) opad) : hmacInv m :=
  ⟨fun h => by simp [hp] at h, fun _ => ⟨hdv, k, hk, hik, hok⟩, fun h => by simp [hp] at h,
    fun h => by simp [heq] at h⟩

/-- A primed unit in READY, whatever its outer context, digest and flags (R27, R116, R119, R123). -/
theorem hmacInv_of_primed {m : HmacUnit} (hp : m.mphase = .ready) {key : Block} (hik : m.ik = xorPad key ipad)
    (hok : m.ok = xorPad key opad) (hprimed : m.inner = primedContext m.ik) (hflag : m.meq = true → m.mdv = true) :
    hmacInv m :=
  hmacInv_of_ready (msg := []) hp hik hok (by rw [hprimed]; exact absorbed_nil _) hflag

theorem hmacInv_hmacEffect {i : Instr} {s : State} (hinv : hmacInv s.m) (hc : correctUse i s = true) :
    hmacInv (hmacEffect s.exp s.m i) := by
  have ⟨_, hload, hready, hflag⟩ := hinv
  cases i with
  | hinit | hbyte | hfinal | hmatch | xbyte => exact hinv
  | kbegin =>
    exact hmacInv_of_keyload rfl rfl rfl (absorbed_nil created) (zeroKeyPad_eq_xorPad _) (zeroKeyPad_eq_xorPad _)
  | kbyte b =>
    simp only [correctUse, Bool.and_eq_true, beq_iff_eq] at hc
    obtain ⟨hp, hroom⟩ := hc
    obtain ⟨hdv, k, hk, hik, hok⟩ := hload hp
    obtain ⟨hik', hok'⟩ := loadKeyByte_pads hk hik hok b
    have heq : s.m.meq = false := by simpa [hdv] using hflag
    exact hmacInv_of_keyload (by simpa [hmacEffect] using hp) (by simpa [hmacEffect] using hdv)
      (by simpa [hmacEffect] using heq) (hk.concat rfl hroom b) hik' hok'
  | kend =>
    obtain ⟨-, k, -, hik, hok⟩ := hload (by simpa [correctUse] using hc)
    obtain ⟨key, hik', hok'⟩ := finishPads_pads hik hok
    exact hmacInv_of_primed rfl hik' hok' rfl (by simpa [hmacEffect] using hflag)
  | mbyte b =>
    simp only [correctUse, Bool.and_eq_true, beq_iff_eq] at hc
    obtain ⟨hp, hroom⟩ := hc
    obtain ⟨key, msg, hik, hok, hmsg⟩ := hready hp
    exact hmacInv_of_ready hp hik hok (hmsg.concat (by rw [total_primedContext]) hroom b) hflag
  | mfinal | mmatch =>
    have hp : s.m.mphase = .ready := by simpa [correctUse] using hc
    obtain ⟨key, -, hik, hok, -⟩ := hready hp
    exact hmacInv_of_primed hp hik hok rfl fun _ => rfl
  | mreset =>
    have hp : s.m.mphase = .ready := by simpa [correctUse] using hc
    obtain ⟨key, -, hik, hok, -⟩ := hready hp
    exact hmacInv_of_primed hp hik hok rfl hflag

/-! ### The fault registers and the port (R29, R131, R132) -/

/-- Decoding the word of a command gives it back (R64, R69). -/
theorem decode_encode (i : Instr) : decode (encode i) = .cmd i := by
  cases i <;> simp [encode, decode, rsvField_wordOf, opField_wordOf, dataField_wordOf, formatN]

theorem faultInv_iff_of_free {s : State} (hf : s.fcode = .none) : faultInv s ↔ s.fcmd = 0 := by
  unfold faultInv
  rw [hf]

/-- A command's fault leaves its condition standing, since it changes nothing else (R132). -/
theorem faultInv_raiseFault {i : Instr} {s : State} (h : correctUse i s = false) :
    faultInv (raiseFault (faultOf i s) (encode i) s) := by
  obtain e | e | e := faultOf_of_misuse h <;> rw [e] <;> exact ⟨i, decode_encode i, e⟩

theorem engineInv_setPort {s : State} (p : List PortCycle) (h : EngineInv s) : EngineInv (setPort s p) := h

theorem engineInv_resetEngine (s : State) : EngineInv (resetEngine s) :=
  ⟨⟨fun _ => ⟨[], absorbed_nil created⟩, nofun, rfl, nofun⟩, ⟨fun _ => rfl, nofun, nofun, nofun⟩, rfl⟩

theorem engineInv_illegal {s : State} {w : CmdWord} (h : EngineInv s) (hw : ∃ why, decode w = .illegal why) :
    EngineInv (raiseFault .illegal w s) := by
  obtain ⟨hh, hm, -⟩ := h
  exact ⟨hh, hm, hw⟩

theorem engineInv_exec {i : Instr} {s t : State} (hinv : EngineInv s) (h : exec i s = .next t) : EngineInv t := by
  obtain ⟨-, rfl⟩ | ⟨hf, hc, rfl⟩ | ⟨-, hc, rfl⟩ := exec_cases h
  · exact hinv
  · obtain ⟨hh, hm, hfault⟩ := hinv
    have hw : s.fcmd = 0 := (faultInv_iff_of_free hf).mp hfault
    exact ⟨hashInv_hashEffect hh hc, hmacInv_hmacEffect hm hc, (faultInv_iff_of_free (s := effect i s) hf).mpr hw⟩
  · obtain ⟨hh, hm, -⟩ := hinv
    exact ⟨hh, hm, faultInv_raiseFault hc⟩

/-! ### The obligations -/

/-- Settles O60: reset has the invariant, an idle cycle leaves the engine alone, an illegal word leaves the units and
records itself, and a command keeps the invariant of each unit. -/
theorem stepKeepsEngineInv : Obligations.StepKeepsEngineInv := by
  unfold Obligations.StepKeepsEngineInv
  intro s t hinv hstep
  obtain ⟨-, hf⟩ | ⟨c, rest, -, -, hf⟩ | ⟨c, rest, -, -, -, hf⟩ | ⟨c, rest, -, -, -, hf⟩ := fetch_cases s
  · cases (step_of_settled hf).symm.trans hstep
    exact hinv
  · cases (step_of_settled hf).symm.trans hstep
    exact engineInv_resetEngine _
  · cases (step_of_settled hf).symm.trans hstep
    exact engineInv_setPort rest hinv
  · have hinv' := engineInv_setPort rest hinv
    obtain ⟨-, hw⟩ | ⟨-, hill, hw⟩ | ⟨-, i, -, hw⟩ := receiveWord_cases c.cmd (setPort s rest)
    · cases (step_of_settled (hf.trans hw)).symm.trans hstep
      exact hinv'
    · cases (step_of_settled (hf.trans hw)).symm.trans hstep
      exact engineInv_illegal hinv' hill
    · exact engineInv_exec hinv' ((step_of_run (hf.trans hw)).symm.trans hstep)

/-- Settles O59: the engine's reset on any state, read on the reset state. -/
theorem resetHasEngineInv : Obligations.ResetHasEngineInv := engineInv_resetEngine State.reset

/-- Settles O25: the counter, the words and the buffer, each by its own induction over the message from its end. -/
theorem absorbedContextHoldsTheMessage : Obligations.AbsorbedContextHoldsTheMessage := by
  unfold Obligations.AbsorbedContextHoldsTheMessage
  intro m hm
  have htotal : (total (absorbAll created m)).toNat = 8 * m.length := by
    simpa using Absorbed.total_eq (start := created) ⟨rfl, by simpa using hm⟩
  refine ⟨htotal, fill_absorbAll_created m, state_absorbAll_created m, fun i h hi => ?_⟩
  rw [fill_absorbAll_created] at hi
  exact getElem_buffer_absorbAll_created m i h hi

/-- Settles O29: the single bits, the three wider fields, and the bounds of their codes. -/
theorem statusFields : Obligations.StatusFields := by
  unfold Obligations.StatusFields
  intro s
  obtain ⟨hused, hdv, heq, h3, mdv, meq⟩ := status_flags s
  rw [status_phase, status_fault, status_reserved]
  exact ⟨hused, hdv, heq, h3, rfl, mdv, meq, rfl, rfl, phaseBits_ne_three _, faultBits_le_four _, rfl, rfl⟩

/-- Settles O45: the lock changes nothing, a fault only its registers, and the effect is on `H` or `EXP` alone. -/
theorem hashGroupFrame : Obligations.HashGroupFrame := by
  unfold Obligations.HashGroupFrame
  intro i s t hi h
  obtain ⟨-, rfl⟩ | ⟨-, -, rfl⟩ | ⟨hf, hc, rfl⟩ := exec_cases h
  · simp
  · refine ⟨hmacEffect_of_not_isMGroup (isMGroup_eq_false hi) _ _, rfl,
      fun hg => expEffect_of_not_isXbyte (isXbyte_eq_false (.inl hg)) _,
      fun hx => ⟨hashEffect_of_not_isHGroup (isHGroup_eq_false (.inr hx)) _ _, rfl, rfl⟩, ?_⟩
    cases i with
    | hinit | hbyte | hfinal | hmatch | xbyte => simp [hashEffect, publishDigest, total_finalize]
    | kbegin | kbyte | kend | mbyte | mfinal | mmatch | mreset => simp [isHGroup, isXbyte] at hi
  · simp [hf, faultOf_ne_none hc, not_unchecked_of_misuse hc, raiseFault_eq]

/-- Settles O46: the lock changes nothing, a fault only its registers, and the effect is on `M` alone. -/
theorem hmacGroupFrame : Obligations.HmacGroupFrame := by
  unfold Obligations.HmacGroupFrame
  intro i s t hi h
  obtain ⟨-, rfl⟩ | ⟨-, -, rfl⟩ | ⟨hf, hc, rfl⟩ := exec_cases h
  · simp
  · refine ⟨hashEffect_of_not_isHGroup (isHGroup_eq_false (.inl hi)) _ _,
      expEffect_of_not_isXbyte (isXbyte_eq_false (.inr hi)) _, rfl, ?_⟩
    cases i with
    | hinit | hbyte | hfinal | hmatch | xbyte => cases hi
    | kbegin | kbyte | kend | mbyte | mfinal | mmatch | mreset => simp [hmacEffect]
  · simp [hf, faultOf_ne_none hc, not_unchecked_of_misuse hc, raiseFault_eq]

/-- Settles O48: the same check, the same fault or the same effect on the unit. -/
theorem unitsComputeFromTheirOwnState : Obligations.UnitsComputeFromTheirOwnState := by
  unfold Obligations.UnitsComputeFromTheirOwnState
  intro i s s' hs hs' he
  have hcode : s.fcode = s'.fcode := hs.trans hs'.symm
  refine ⟨_, _, exec_of_free hs i, exec_of_free hs' i, fun hi hh => ?_, fun hi hm => ?_, fun hi => ?_⟩
  · have hg := isMGroup_eq_false (.inl hi)
    exact checked_congr State.h (correctUse_congr_h hg hh) (faultOf_congr_h hg hh) hcode (fun _ _ => hh)
      (by simp [hh, he])
  · have hg := isHGroup_eq_false (.inl hi)
    exact checked_congr State.m (correctUse_congr_m hg hm) (faultOf_congr_m hg hm) hcode (fun _ _ => hm)
      (by simp [hm, he])
  · rw [checked_of_isXbyte hi, checked_of_isXbyte hi]
    exact ⟨by simp [he], hcode⟩

/-- Settles O49: the stream lemma for the view of `H` and `EXP` and for the view of `M` and `EXP`. -/
theorem interleavingLeavesEachUnitAlone : Obligations.InterleavingLeavesEachUnitAlone := by
  unfold Obligations.InterleavingLeavesEachUnitAlone
  intro is s t hrun ht
  obtain ⟨u, hu, hv, huf⟩ := runCommands_filter_hash hrun ht
  obtain ⟨u', hu', hv', huf'⟩ := runCommands_filter_hmac hrun ht
  obtain ⟨hh, he⟩ := Prod.mk.inj hv
  obtain ⟨hm, he'⟩ := Prod.mk.inj hv'
  exact ⟨⟨u, hu, hh, he, huf⟩, ⟨u', hu', hm, he', huf'⟩⟩

/-- Settles O1: each field of the reset state read off. -/
theorem resetStateValues : Obligations.ResetStateValues := by
  unfold Obligations.ResetStateValues
  simp [State.reset, created, iv, status, phaseBits, faultBits]

end Sys2Proof.Machine
end

section
/-! PROOFS of the memory family (spec/20_memory.md): the byte order of a digest and of its port (R43, R44), and which
commands change a digest register (R46, R25, R26). -/

namespace Sys2Proof.Machine

/-! ### The bytes of a digest (R43) -/

theorem getElem_serialise (w : HashWords) (i j : Nat) (hi : i < 8) (hj : j < 4) :
    (serialise w)[4 * i + j] = (bytes32 w[i])[j] := by
  simp [serialise, show (4 * i + j) / 4 = i by omega, Nat.mod_eq_of_lt hj]

theorem hashWords_eq (w : HashWords) : w = #v[w[0], w[1], w[2], w[3], w[4], w[5], w[6], w[7]] := by
  ext i hi
  interval_cases i <;> rfl

/-- The bytes of a digest are those of its words, one word after the other. -/
theorem toList_serialise (w : HashWords) : (serialise w).toList = w.toList.flatMap fun x => (bytes32 x).toList := by
  have row (i : Fin 8) : (List.ofFn fun j : Fin 4 => (serialise w)[4 * i.val + j.val]) = (bytes32 w[i]).toList := by
    simp only [getElem_serialise w i.val _ i.isLt (Fin.isLt _)]
    rfl
  calc (serialise w).toList
      = (Vector.ofFn fun k : Fin 32 => (serialise w)[k.val]).toList := by rw [Vector.ofFn_getElem]
    _ = List.ofFn fun k : Fin (4 * 8) => (serialise w)[k.val] := Vector.toList_ofFn
    _ = (List.ofFn fun i : Fin 8 => (bytes32 w[i]).toList).flatten := by
        rw [List.ofFn_mul']
        simp only [row]
    _ = w.toList.flatMap fun x => (bytes32 x).toList := by
        rw [hashWords_eq w]
        rfl

/-! ### The number on a digest port (R44) -/

/-- The number of a byte string, first byte most significant. -/
def bytesValue (bs : List Byte) : Nat := bs.foldl (fun n b => 256 * n + b.toNat) 0

theorem wire256_eq (d : Digest) : wire256 d = BitVec.ofNat 256 (bytesValue d.toList) := rfl

theorem bytesValue_concat (bs : List Byte) (b : Byte) : bytesValue (bs ++ [b]) = 256 * bytesValue bs + b.toNat := by
  simp [bytesValue]

/-- Byte `i` of the string is the digit with `k` bytes after it. -/
theorem bytesValue_digit (bs : List Byte) (i k : Nat) (h : i < bs.length) (hk : i + k + 1 = bs.length) :
    bytesValue bs / 256 ^ k % 256 = bs[i].toNat := by
  induction bs using List.reverseRecOn generalizing k with
  | nil => cases h
  | append_singleton bs b ih =>
    rw [bytesValue_concat]
    rw [List.length_append, List.length_singleton] at hk
    have hb := b.isLt
    cases k with
    | zero =>
      obtain rfl : i = bs.length := by omega
      rw [pow_zero, Nat.div_one, List.getElem_concat_length rfl]
      omega
    | succ k =>
      have hi : i < bs.length := by omega
      rw [List.getElem_append_left hi, ← ih k hi (by omega), pow_succ', ← Nat.div_div_eq_div_mul]
      congr 2
      omega

/-- Byte `i` of a digest register stands in bits `255-8i : 248-8i` of its port. -/
theorem extractLsb'_wire256 (d : Digest) (i : Nat) (h : i < 32) : (wire256 d).extractLsb' (248 - 8 * i) 8 = d[i] := by
  have hs : 248 - 8 * i = 8 * (31 - i) := by omega
  have hw : (2 : Nat) ^ 256 = 2 ^ (248 - 8 * i) * 2 ^ (8 * (i + 1)) := by
    rw [← pow_add]
    congr 1
    omega
  apply BitVec.eq_of_toNat_eq
  calc ((wire256 d).extractLsb' (248 - 8 * i) 8).toNat
      = bytesValue d.toList % 2 ^ 256 / 2 ^ (248 - 8 * i) % 2 ^ 8 := by
        rw [BitVec.extractLsb'_toNat, Nat.shiftRight_eq_div_pow, wire256_eq, BitVec.toNat_ofNat]
    _ = bytesValue d.toList / 256 ^ (31 - i) % 256 := by
        rw [hw, Nat.mod_mul_right_div_self, Nat.mod_mod_of_dvd _ (pow_dvd_pow 2 (by omega)), hs, pow_mul]
        norm_num
    _ = d[i].toNat :=
        bytesValue_digit d.toList i (31 - i) (by rwa [Vector.length_toList]) (by rw [Vector.length_toList]; omega)

/-- The value grows by a whole word when the word's four bytes follow the number `n`. -/
theorem foldl_bytes32 (n : Nat) (w : Word) :
    (bytes32 w).toList.foldl (fun n b => 256 * n + b.toNat) n = 2 ^ 32 * n + w.toNat := by
  have hw := w.isLt
  simp only [bytes32, Vector.toList_mk, List.foldl_cons, List.foldl_nil, BitVec.extractLsb'_toNat,
    Nat.shiftRight_eq_div_pow]
  omega

theorem bytesValue_serialise (w : HashWords) :
    bytesValue (serialise w).toList = w.toList.foldl (fun n x => 2 ^ 32 * n + x.toNat) 0 := by
  simp only [bytesValue, toList_serialise, List.foldl_flatMap, foldl_bytes32]

theorem toNat_append_eq_add {m n : Nat} (x : BitVec m) (y : BitVec n) :
    (x ++ y).toNat = 2 ^ n * x.toNat + y.toNat := by
  rw [BitVec.toNat_append, ← Nat.shiftLeft_add_eq_or_of_lt y.isLt, Nat.shiftLeft_eq, Nat.mul_comm]

/-- The port of a serialised state is its words side by side. -/
theorem wire256_serialise (w : HashWords) :
    wire256 (serialise w) = w[0] ++ w[1] ++ w[2] ++ w[3] ++ w[4] ++ w[5] ++ w[6] ++ w[7] := by
  have hval : bytesValue (serialise w).toList =
      (w[0] ++ w[1] ++ w[2] ++ w[3] ++ w[4] ++ w[5] ++ w[6] ++ w[7]).toNat := by
    rw [bytesValue_serialise, hashWords_eq w]
    simp only [toNat_append_eq_add]
    simp
  rw [wire256_eq, hval, BitVec.ofNat_toNat, BitVec.setWidth_eq]

/-! ### Which commands change a digest register (R46, R25, R26) -/

/-- A command in correct use other than HFINAL and HMATCH keeps `HD`; these two set its flag (R106, R107). -/
theorem hashEffect_hd (e : Digest) (h : HashUnit) (i : Instr) :
    (hashEffect e h i).hd = h.hd ∨ (i = .hfinal ∨ i = .hmatch) ∧ (hashEffect e h i).hdv = true := by
  cases i with
  | hfinal => exact .inr ⟨.inl rfl, rfl⟩
  | hmatch => exact .inr ⟨.inr rfl, rfl⟩
  | hinit | hbyte | xbyte | kbegin | kbyte | kend | mbyte | mfinal | mmatch | mreset => exact .inl rfl

/-- A command in correct use other than MFINAL and MMATCH keeps `MD`; these two set its flag (R116, R121, R122). -/
theorem hmacEffect_md (e : Digest) (m : HmacUnit) (i : Instr) :
    (hmacEffect e m i).md = m.md ∨ (i = .mfinal ∨ i = .mmatch) ∧ (hmacEffect e m i).mdv = true := by
  cases i with
  | mfinal => exact .inr ⟨.inl rfl, rfl⟩
  | mmatch => exact .inr ⟨.inr rfl, rfl⟩
  | kbyte | kend => simp [hmacEffect]
  | hinit | hbyte | hfinal | hmatch | xbyte | kbegin | mbyte | mreset => exact .inl rfl

/-- On every path, lock and fault included, `HD` is kept or a finalizing command set its flag. -/
theorem exec_hd {i : Instr} {s t : State} (h : exec i s = .next t) :
    t.h.hd = s.h.hd ∨ (i = .hfinal ∨ i = .hmatch) ∧ t.h.hdv = true := by
  obtain ⟨-, rfl⟩ | ⟨-, -, rfl⟩ | ⟨-, -, rfl⟩ := exec_cases h
  · exact .inl rfl
  · exact hashEffect_hd s.exp s.h i
  · exact .inl rfl

theorem exec_md {i : Instr} {s t : State} (h : exec i s = .next t) :
    t.m.md = s.m.md ∨ (i = .mfinal ∨ i = .mmatch) ∧ t.m.mdv = true := by
  obtain ⟨-, rfl⟩ | ⟨-, -, rfl⟩ | ⟨-, -, rfl⟩ := exec_cases h
  · exact .inl rfl
  · exact hmacEffect_md s.exp s.m i
  · exact .inl rfl

/-! ### The obligations -/

/-- Settles O28: the digest by words, a port byte as a digit of the port's number, and that number word by word. -/
theorem digestBytesAndPorts : Obligations.DigestBytesAndPorts := by
  unfold Obligations.DigestBytesAndPorts
  refine ⟨fun w i hi => ?_, fun s i hi => ?_, wire256_serialise⟩
  · exact ⟨getElem_serialise w i 0 hi (by omega), getElem_serialise w i 1 hi (by omega),
      getElem_serialise w i 2 hi (by omega), getElem_serialise w i 3 hi (by omega)⟩
  · exact ⟨extractLsb'_wire256 s.h.hd i hi, extractLsb'_wire256 s.m.md i hi⟩

/-- Settles O50: a command keeps each digest register, or it is one of its two finalizing commands and sets the flag. -/
theorem onlyFinalizingCommandsChangeDigests : Obligations.OnlyFinalizingCommandsChangeDigests := by
  unfold Obligations.OnlyFinalizingCommandsChangeDigests
  intro i s t h
  have hd := exec_hd h
  have md := exec_md h
  refine ⟨fun hf hm => ?_, fun hf hm => ?_, fun hne => (hd.resolve_left hne).2, fun hne => (md.resolve_left hne).2⟩
  · exact congrArg wire256 (hd.resolve_right fun ⟨hi, _⟩ => hi.elim hf hm)
  · exact congrArg wire256 (md.resolve_right fun ⟨hi, _⟩ => hi.elim hf hm)

end Sys2Proof.Machine
end

section
/-! PROOFS of the encoding family (spec/30_encoding.md): the decoder answers a command exactly on that command's word
(R64, R69), the legal words and the rows of the opcode map are these words (R65, R67), and the assembler reads back
both spellings of a command's line (R70). -/

namespace Sys2Proof.Machine

/-! ### The decoder answers a command exactly on that command's word (R64, R69) -/

theorem wordOf_eq_of_fields {w : CmdWord} {op : BitVec 4} {b : Byte} (ho : (opField w).toNat = op.toNat)
    (hr : rsvField w = 0) (hd : dataField w = b) : wordOf op b = w :=
  word_eq_of_fields ((opField_wordOf op b).trans (BitVec.eq_of_toNat_eq ho.symm))
    ((rsvField_wordOf op b).trans hr.symm) ((dataField_wordOf op b).trans hd.symm)

theorem encode_of_decode {w : CmdWord} {i : Instr} (h : decode w = .cmd i) : encode i = w := by
  unfold decode at h
  split at h
  case isTrue => cases h
  case isFalse hr =>
    have hr : rsvField w = 0 := not_not.mp hr
    split at h
    case h_2 ho | h_5 ho | h_7 ho | h_9 ho =>
      cases h
      exact wordOf_eq_of_fields ho hr rfl
    case h_1 ho | h_3 ho | h_4 ho | h_6 ho | h_8 ho | h_10 ho | h_11 ho | h_12 ho =>
      obtain ⟨hd, rfl⟩ := formatN_eq_cmd.mp h
      exact wordOf_eq_of_fields ho hr hd
    case h_13 => cases h

theorem decode_eq_cmd_iff {w : CmdWord} {i : Instr} : decode w = .cmd i ↔ encode i = w :=
  ⟨encode_of_decode, fun h => h ▸ decode_encode i⟩

/-! ### The legal words (R67) -/

theorem opField_and (w v : CmdWord) : opField (w &&& v) = opField w &&& opField v := BitVec.extractLsb'_and

theorem rsvField_and (w v : CmdWord) : rsvField (w &&& v) = rsvField w &&& rsvField v := BitVec.extractLsb'_and

theorem dataField_and (w v : CmdWord) : dataField (w &&& v) = dataField w &&& dataField v := BitVec.extractLsb'_and

/-- A word under a mask, field by field (R64). -/
theorem and_eq_iff_fields {w m v : CmdWord} :
    w &&& m = v ↔ opField w &&& opField m = opField v ∧ rsvField w &&& rsvField m = rsvField v ∧
      dataField w &&& dataField m = dataField v := by
  rw [← opField_and, ← rsvField_and, ← dataField_and]
  exact ⟨fun h => h ▸ ⟨rfl, rfl, rfl⟩, fun ⟨ho, hr, hd⟩ => word_eq_of_fields ho hr hd⟩

/-! `BitVec.and_allOnes` at the literals that `simp` leaves of the masks' fields. -/

theorem nibble_and_ones (x : BitVec 4) : x &&& 0xF#4 = x := BitVec.and_allOnes

theorem byte_and_ones (x : Byte) : x &&& 0xFF#8 = x := BitVec.and_allOnes

theorem and_opMask_eq_wordOf_iff {w : CmdWord} {op : BitVec 4} : w &&& 0xF000 = wordOf op 0 ↔ opField w = op := by
  have ho : opField 0xF000#16 = 0xF#4 := rfl
  have hr : rsvField 0xF000#16 = 0#4 := rfl
  have hd : dataField 0xF000#16 = 0#8 := rfl
  simp [and_eq_iff_fields, opField_wordOf, rsvField_wordOf, dataField_wordOf, ho, hr, hd, nibble_and_ones]

theorem and_rsvMask_eq_zero_iff {w : CmdWord} : w &&& 0x0F00 = 0 ↔ rsvField w = 0 := by
  simp [and_eq_iff_fields, opField, rsvField, dataField, nibble_and_ones]

theorem and_dataMask_eq_zero_iff {w : CmdWord} : w &&& 0x00FF = 0 ↔ dataField w = 0 := by
  simp [and_eq_iff_fields, opField, rsvField, dataField, byte_and_ones]

theorem opcodeAssigned_iff (w : CmdWord) :
    WellFormed.opcodeAssigned w = true ↔ 1 ≤ (opField w).toNat ∧ (opField w).toNat < 13 := by
  rw [opField_toNat]
  simp [WellFormed.opcodeAssigned, BitVec.le_def, BitVec.lt_def]
  omega

theorem hasDataByte_iff (w : CmdWord) : WellFormed.hasDataByte w = true ↔ (opField w).toNat ∈ [2, 5, 7, 9] := by
  have format (op : BitVec 4) : (w &&& 0xF000 == wordOf op 0) = (opField w == op) :=
    decide_eq_decide.mpr and_opMask_eq_wordOf_iff
  calc WellFormed.hasDataByte w = true
      ↔ (opField w == 0x2 || opField w == 0x5 || opField w == 0x7 || opField w == 0x9) = true := by
        rw [← format, ← format, ← format, ← format]
        rfl
    _ ↔ (opField w).toNat ∈ [2, 5, 7, 9] := by simp [or_assoc, ← BitVec.toNat_inj]

/-- The three checks of R67 on the fields of R64. -/
theorem wordLegal_iff (w : CmdWord) :
    WellFormed.wordLegal w = true ↔
      (1 ≤ (opField w).toNat ∧ (opField w).toNat < 13) ∧ rsvField w = 0 ∧
        ((opField w).toNat ∈ [2, 5, 7, 9] ∨ dataField w = 0) := by
  simp only [WellFormed.wordLegal, WellFormed.rsvClear, WellFormed.dataClear, Bool.and_eq_true, Bool.or_eq_true,
    beq_iff_eq, opcodeAssigned_iff, hasDataByte_iff, and_rsvMask_eq_zero_iff, and_dataMask_eq_zero_iff, and_assoc]

theorem wordLegal_encode (i : Instr) : WellFormed.wordLegal (encode i) = true := by
  cases i with
  | hinit => exact Laws.EncodeLegal.hinit
  | hbyte b => exact Laws.EncodeLegal.hbyte b
  | hfinal => exact Laws.EncodeLegal.hfinal
  | hmatch => exact Laws.EncodeLegal.hmatch
  | xbyte b => exact Laws.EncodeLegal.xbyte b
  | kbegin => exact Laws.EncodeLegal.kbegin
  | kbyte b => exact Laws.EncodeLegal.kbyte b
  | kend => exact Laws.EncodeLegal.kend
  | mbyte b => exact Laws.EncodeLegal.mbyte b
  | mfinal => exact Laws.EncodeLegal.mfinal
  | mmatch => exact Laws.EncodeLegal.mmatch
  | mreset => exact Laws.EncodeLegal.mreset

theorem decode_of_wordLegal {w : CmdWord} (h : WellFormed.wordLegal w = true) : ∃ i, decode w = .cmd i := by
  obtain ⟨⟨hlo, hhi⟩, hr, hd⟩ := (wordLegal_iff w).mp h
  unfold decode
  rw [if_neg (not_not.mpr hr)]
  split
  case h_2 | h_5 | h_7 | h_9 => exact ⟨_, rfl⟩
  case h_1 ho | h_3 ho | h_4 ho | h_6 ho | h_8 ho | h_10 ho | h_11 ho | h_12 ho =>
    rw [ho] at hd
    exact ⟨_, formatN_eq_cmd.mpr ⟨hd.resolve_left (by decide), rfl⟩⟩
  case h_13 =>
    simp only [imp_false] at *
    omega

theorem wordLegal_iff_exists_decode (w : CmdWord) : WellFormed.wordLegal w = true ↔ ∃ i, decode w = .cmd i :=
  ⟨decode_of_wordLegal, fun ⟨i, h⟩ => encode_of_decode h ▸ wordLegal_encode i⟩

/-! ### The rows of the opcode map (R65, R66) -/

/-- A row of mask 0xFFFF is selected by its `match` alone (R65, format N). -/
theorem and_wordMask_eq {w bits : CmdWord} (h : (w &&& 0xFFFF == bits) = true) : bits = w :=
  (beq_iff_eq.mp h).symm.trans BitVec.and_allOnes

/-- A row of mask 0xFF00 is selected by its opcode with any data byte (R65, format D). -/
theorem and_opRsvMask_eq_wordOf_iff {w : CmdWord} {op : BitVec 4} :
    w &&& 0xFF00 = wordOf op 0 ↔ opField w = op ∧ rsvField w = 0 := by
  have ho : opField 0xFF00#16 = 0xF#4 := rfl
  have hr : rsvField 0xFF00#16 = 0xF#4 := rfl
  have hd : dataField 0xFF00#16 = 0#8 := rfl
  simp [and_eq_iff_fields, opField_wordOf, rsvField_wordOf, dataField_wordOf, ho, hr, hd, nibble_and_ones]

theorem wordOf_dataField_of_and {w : CmdWord} {op : BitVec 4} (h : (w &&& 0xFF00 == wordOf op 0) = true) :
    wordOf op (dataField w) = w := by
  obtain ⟨ho, hr⟩ := and_opRsvMask_eq_wordOf_iff.mp (beq_iff_eq.mp h)
  exact wordOf_eq_of_fields (congrArg BitVec.toNat ho) hr rfl

theorem wordOf_and_opRsvMask (op : BitVec 4) (b : Byte) : (wordOf op b &&& 0xFF00 == wordOf op 0) = true :=
  beq_iff_eq.mpr (and_opRsvMask_eq_wordOf_iff.mpr ⟨opField_wordOf op b, rsvField_wordOf op b⟩)

/-- A word that selects a row is the encoding of a command with the row's mnemonic. -/
theorem encode_of_selects {w : CmdWord} {r : WellFormed.Row} (hr : r ∈ WellFormed.opcodeMap)
    (h : r.selects w = true) : ∃ i, encode i = w ∧ mnemonicOf i = r.mnemonic := by
  simp only [WellFormed.opcodeMap, List.cons_append, List.nil_append, List.mem_cons, List.not_mem_nil, or_false] at hr
  obtain rfl | rfl | rfl | rfl | rfl | rfl | rfl | rfl | rfl | rfl | rfl | rfl := hr
  · exact ⟨.hinit, and_wordMask_eq h, rfl⟩
  · exact ⟨.hbyte (dataField w), wordOf_dataField_of_and h, rfl⟩
  · exact ⟨.hfinal, and_wordMask_eq h, rfl⟩
  · exact ⟨.hmatch, and_wordMask_eq h, rfl⟩
  · exact ⟨.xbyte (dataField w), wordOf_dataField_of_and h, rfl⟩
  · exact ⟨.kbegin, and_wordMask_eq h, rfl⟩
  · exact ⟨.kbyte (dataField w), wordOf_dataField_of_and h, rfl⟩
  · exact ⟨.kend, and_wordMask_eq h, rfl⟩
  · exact ⟨.mbyte (dataField w), wordOf_dataField_of_and h, rfl⟩
  · exact ⟨.mfinal, and_wordMask_eq h, rfl⟩
  · exact ⟨.mmatch, and_wordMask_eq h, rfl⟩
  · exact ⟨.mreset, and_wordMask_eq h, rfl⟩

/-- The row of the opcode map with a command's mnemonic (R65). -/
def rowOf : Instr → WellFormed.Row
  | .hinit => ⟨"HINIT", 0x1000, 0xFFFF⟩
  | .hbyte _ => ⟨"HBYTE", 0x2000, 0xFF00⟩
  | .hfinal => ⟨"HFINAL", 0x3000, 0xFFFF⟩
  | .hmatch => ⟨"HMATCH", 0x4000, 0xFFFF⟩
  | .xbyte _ => ⟨"XBYTE", 0x5000, 0xFF00⟩
  | .kbegin => ⟨"KBEGIN", 0x6000, 0xFFFF⟩
  | .kbyte _ => ⟨"KBYTE", 0x7000, 0xFF00⟩
  | .kend => ⟨"KEND", 0x8000, 0xFFFF⟩
  | .mbyte _ => ⟨"MBYTE", 0x9000, 0xFF00⟩
  | .mfinal => ⟨"MFINAL", 0xA000, 0xFFFF⟩
  | .mmatch => ⟨"MMATCH", 0xB000, 0xFFFF⟩
  | .mreset => ⟨"MRESET", 0xC000, 0xFFFF⟩

theorem rowOf_mem_opcodeMap (i : Instr) : rowOf i ∈ WellFormed.opcodeMap := by
  cases i <;> simp [rowOf, WellFormed.opcodeMap]

theorem rowOf_selects_encode (i : Instr) : (rowOf i).selects (encode i) = true := by
  cases i with
  | hbyte b | xbyte b | kbyte b | mbyte b => exact wordOf_and_opRsvMask _ b
  | hinit | hfinal | hmatch | kbegin | kend | mfinal | mmatch | mreset => rfl

theorem exists_row_iff_exists_decode (w : CmdWord) :
    (∃ r ∈ WellFormed.opcodeMap, r.selects w = true) ↔ ∃ i, decode w = .cmd i := by
  constructor
  · rintro ⟨r, hr, h⟩
    obtain ⟨i, hi, -⟩ := encode_of_selects hr h
    exact ⟨i, decode_eq_cmd_iff.mpr hi⟩
  · rintro ⟨i, h⟩
    exact ⟨rowOf i, rowOf_mem_opcodeMap i, encode_of_decode h ▸ rowOf_selects_encode i⟩

theorem dataField_encode {i : Instr} {b : Byte} (h : operandOf i = some b) : dataField (encode i) = b := by
  cases i with
  | hbyte c | xbyte c | kbyte c | mbyte c => exact (dataField_wordOf _ c).trans (Option.some.inj h)
  | hinit | hfinal | hmatch | kbegin | kend | mfinal | mmatch | mreset => cases h

/-! ### A line of the assembler and its parts (R70) -/

theorem dropBlanks_nil : dropBlanks [] = [] := rfl

theorem dropBlanks_eq_self {cs : List Char} (h : cs.head? ≠ some ' ') : dropBlanks cs = cs := by
  cases cs with
  | nil => exact dropBlanks_nil
  | cons c cs => exact List.dropWhile_cons_of_neg (by simpa using h)

/-- The blanks around a text with none at its ends (log entry 7). -/
theorem dropBlanks_reverse_dropBlanks {cs : List Char} (hh : cs.head? ≠ some ' ') (hl : cs.getLast? ≠ some ' ') :
    (dropBlanks (dropBlanks cs).reverse).reverse = cs := by
  rw [dropBlanks_eq_self hh, dropBlanks_eq_self (by rwa [List.head?_reverse]), List.reverse_reverse]

/-- A format N command's mnemonic stands in its table (R65). -/
theorem lookupName_mnemonicsN {i : Instr} (h : operandOf i = none) :
    lookupName mnemonicsN (mnemonicOf i).toList = some i := by
  cases i with
  | hbyte | xbyte | kbyte | mbyte => cases h
  | hinit | hfinal | hmatch | kbegin | kend | mfinal | mmatch | mreset => decide

/-- The table's entry, applied to the byte, is the command. -/
theorem lookupName_mnemonicsD {i : Instr} {b : Byte} (h : operandOf i = some b) :
    ∃ f, lookupName mnemonicsD (mnemonicOf i).toList = some f ∧ f b = i := by
  cases i with
  | hbyte c | xbyte c | kbyte c | mbyte c =>
    cases h
    simp [lookupName, mnemonicsD, mnemonicOf]
  | hinit | hfinal | hmatch | kbegin | kend | mfinal | mmatch | mreset => cases h

theorem mnemonic_ne_nil (i : Instr) : (mnemonicOf i).toList ≠ [] := by
  cases i <;> simp [mnemonicOf]

theorem semicolon_not_mem_mnemonic (i : Instr) : ';' ∉ (mnemonicOf i).toList := by
  cases i <;> simp [mnemonicOf]

theorem blank_not_mem_mnemonic (i : Instr) : ' ' ∉ (mnemonicOf i).toList := by
  cases i <;> simp [mnemonicOf]

/-- A line with no comment and no blank at its ends is its own text. -/
theorem lineText_eq_self {line : List Char} (hs : ';' ∉ line) (hh : line.head? ≠ some ' ')
    (hl : line.getLast? ≠ some ' ') :
    (dropBlanks (dropBlanks (line.takeWhile (· != ';'))).reverse).reverse = line := by
  have hc : line.takeWhile (· != ';') = line :=
    List.takeWhile_eq_self_iff.mpr fun c hc => bne_iff_ne.mpr (ne_of_mem_of_not_mem hc hs)
  rw [hc, dropBlanks_reverse_dropBlanks hh hl]

theorem takeWhile_word {word : List Char} (hw : ' ' ∉ word) (rest : List Char) :
    (word ++ ' ' :: rest).takeWhile (· != ' ') = word := by
  rw [List.takeWhile_append_of_pos fun c hc => bne_iff_ne.mpr (ne_of_mem_of_not_mem hc hw)]
  simp

section
variable {word : List Char} (hne : word ≠ []) (hs : ';' ∉ word) (hb : ' ' ∉ word)
include hne hs hb

theorem assembleLine_word {i : Instr} (hi : lookupName mnemonicsN word = some i) : assembleLine word = some [i] := by
  have hh : word.head? ≠ some ' ' := fun h => hb (List.mem_of_head? h)
  have hl : word.getLast? ≠ some ' ' := fun h => hb (List.mem_of_getLast? h)
  have hw : word.takeWhile (· != ' ') = word :=
    List.takeWhile_eq_self_iff.mpr fun c hc => bne_iff_ne.mpr (ne_of_mem_of_not_mem hc hb)
  simp [assembleLine, lineText_eq_self hs hh hl, hw, hne, hi, dropBlanks_nil]

theorem assembleLine_word_operand {operand : List Char} {f : Byte → Instr} {b : Byte} (hos : ';' ∉ operand)
    (hoh : operand.head? ≠ some ' ') (hol : operand.getLast? ≠ some ' ') (hf : lookupName mnemonicsD word = some f)
    (hp : parseByte operand = some b) : assembleLine (word ++ ' ' :: operand) = some [f b] := by
  have ho : operand ≠ [] := by
    rintro rfl
    cases hp
  have hh : (word ++ ' ' :: operand).head? ≠ some ' ' := by
    rw [List.head?_append_of_ne_nil _ hne]
    exact fun h => hb (List.mem_of_head? h)
  have hl : (word ++ ' ' :: operand).getLast? ≠ some ' ' := by
    rw [List.append_cons, List.getLast?_append_of_ne_nil _ ho]
    exact hol
  have hls : ';' ∉ word ++ ' ' :: operand := by simp [hs, hos]
  have hcut : dropBlanks (' ' :: operand) = operand :=
    (List.dropWhile_cons_of_pos rfl).trans (dropBlanks_eq_self hoh)
  simp [assembleLine, lineText_eq_self hls hh hl, takeWhile_word hb, hne, hcut, ho, hf, hp]

end

/-- A format D command is read back from any spelling of its byte that stands for one operand. -/
theorem assembleLine_mnemonic_operand {i : Instr} {b : Byte} (h : operandOf i = some b) {operand : List Char}
    (hos : ';' ∉ operand) (hoh : operand.head? ≠ some ' ') (hol : operand.getLast? ≠ some ' ')
    (hp : parseByte operand = some b) : assembleLine ((mnemonicOf i).toList ++ ' ' :: operand) = some [i] := by
  obtain ⟨f, hf, rfl⟩ := lookupName_mnemonicsD h
  exact assembleLine_word_operand (mnemonic_ne_nil _) (semicolon_not_mem_mnemonic _) (blank_not_mem_mnemonic _)
    hos hoh hol hf hp

/-! ### The two spellings of a byte (R70) -/

theorem hexDigit_hexChar : ∀ n < 16, hexDigit (hexChar n) = some n := by decide

theorem hexChar_ne : ∀ n < 16, hexChar n ≠ ' ' ∧ hexChar n ≠ ';' := by decide

theorem parseByte_hex (b : Byte) :
    parseByte ['0', 'x', hexChar (b.toNat / 16), hexChar (b.toNat % 16)] = some b := by
  have hb := b.isLt
  have hi := hexDigit_hexChar (b.toNat / 16) (by omega)
  have lo := hexDigit_hexChar (b.toNat % 16) (by omega)
  simp [parseByte, hi, lo, Nat.div_add_mod]

theorem charToNat_ofNat_of_ascii {n : Nat} (h : n < 128) : (Char.ofNat n).toNat = n := by
  rw [Char.toNat_ofNat, if_pos (.inl (by omega))]

theorem parseByte_quoted {b : Byte} (h : b.toNat < 128) : parseByte ['\'', Char.ofNat b.toNat, '\''] = some b := by
  simp [parseByte, charToNat_ofNat_of_ascii h, h]

theorem charOfNat_ne_semicolon {b : Byte} (h : b.toNat < 128) (hs : b ≠ 0x3B) : Char.ofNat b.toNat ≠ ';' := by
  intro e
  exact hs (BitVec.eq_of_toNat_eq ((charToNat_ofNat_of_ascii h).symm.trans (congrArg Char.toNat e)))

theorem assembleLine_renderLine (i : Instr) : assembleLine (renderLine i) = some [i] := by
  unfold renderLine
  split
  next h =>
    exact assembleLine_word (mnemonic_ne_nil i) (semicolon_not_mem_mnemonic i) (blank_not_mem_mnemonic i)
      (lookupName_mnemonicsN h)
  next b h =>
    have hb := b.isLt
    obtain ⟨-, hi⟩ := hexChar_ne (b.toNat / 16) (by omega)
    obtain ⟨lb, lo⟩ := hexChar_ne (b.toNat % 16) (by omega)
    exact assembleLine_mnemonic_operand h (by simp [hi.symm, lo.symm]) (by simp) (by simpa using lb) (parseByte_hex b)

theorem assembleLine_renderQuoted {i : Instr} {b : Byte} (h : operandOf i = some b) (hb : b.toNat < 128)
    (hs : b ≠ 0x3B) : assembleLine (renderQuoted i) = some [i] := by
  unfold renderQuoted
  rw [h]
  exact assembleLine_mnemonic_operand h (by simp [(charOfNat_ne_semicolon hb hs).symm]) (by simp) (by simp)
    (parseByte_quoted hb)

/-! ### The obligations -/

/-- Settles O10: the fields of a command's word are the ones the decoder reads. -/
theorem decodeOfEncodeIsIdentity : Obligations.DecodeOfEncodeIsIdentity := by
  unfold Obligations.DecodeOfEncodeIsIdentity
  exact decode_encode

/-- Settles O11: each answer of the decoder fixes all three fields of the word. -/
theorem decodedWordIsItsEncoding : Obligations.DecodedWordIsItsEncoding := by
  unfold Obligations.DecodedWordIsItsEncoding
  exact fun _ _ => encode_of_decode

/-- Settles O12: R67's checks on the fields decide the decoder's branches, and each command has its row. -/
theorem legalWordsAreTheCommands : Obligations.LegalWordsAreTheCommands := by
  unfold Obligations.LegalWordsAreTheCommands
  exact fun w => ⟨wordLegal_iff_exists_decode w,
    (wordLegal_iff_exists_decode w).trans (exists_row_iff_exists_decode w).symm⟩

/-- Settles O13: a selected row gives the command whose encoding the word is. -/
theorem opcodeMapSelectsTheCommand : Obligations.OpcodeMapSelectsTheCommand := by
  unfold Obligations.OpcodeMapSelectsTheCommand
  intro w r hr h
  obtain ⟨i, rfl, hm⟩ := encode_of_selects hr h
  refine ⟨i, decode_encode i, hm, fun b hb => ?_⟩
  rw [← dataField_toNat, dataField_encode hb]

/-- Settles O15: the mnemonic is a line's first word, and the byte is read back from its digits or its character. -/
theorem assemblerReadsBackEveryCommand : Obligations.AssemblerReadsBackEveryCommand := by
  unfold Obligations.AssemblerReadsBackEveryCommand
  exact ⟨assembleLine_renderLine, fun _ _ => assembleLine_renderQuoted⟩

/-- Settles O14: each word is the encoding of the command beside it. -/
theorem wordsOfTheSpecDecode : Obligations.WordsOfTheSpecDecode := by
  unfold Obligations.WordsOfTheSpecDecode
  exact ⟨decode_encode .hinit, decode_encode (.hbyte 0x61), decode_encode .hfinal, decode_encode .hmatch,
    decode_encode (.xbyte 0xAD), decode_encode .kbegin, decode_encode (.kbyte 0x4A), decode_encode .kend,
    decode_encode (.mbyte 0x77), decode_encode .mfinal, decode_encode .mmatch, decode_encode .mreset⟩

end Sys2Proof.Machine
end

section
/-! PROOFS of the compression family (spec/40_compress.md): the bits of the rotations, of Ch and Maj and of the sigma
functions (R81, R82, R85, R86), the transform as rounds 0 to 63 by index (R89 to R92), and the carry between the halves
of the counter (R94). -/

namespace Sys2Proof.Machine

/-! ### Bits of the word functions (R81, R82) -/

/-- For the amounts of R81 the rotation is the library's. -/
theorem rotr_eq_rotateRight (x : Word) {n : Nat} (h : n < 32) : rotr x n = x.rotateRight n :=
  (BitVec.rotateRight_def.trans (by rw [Nat.mod_eq_of_lt h]; rfl)).symm

/-- Below bit `32 - n` the right shift gives the bit of a rotation, from there on the left shift does. -/
theorem getLsbD_rotr (x : Word) {n i : Nat} (hn : n < 32) (hi : i < 32) :
    (rotr x n).getLsbD i = x.getLsbD ((i + n) % 32) := by
  rw [rotr_eq_rotateRight x hn, BitVec.getLsbD_rotateRight, Nat.mod_eq_of_lt hn, Bool.cond_decide]
  split
  next h => rw [Nat.mod_eq_of_lt (by omega), Nat.add_comm]
  next h =>
    have wrap : (i + n) % 32 = i - (32 - n) := by omega
    rw [wrap, decide_eq_true hi, Bool.true_and]

theorem getLsbD_shr (x : Word) (n i : Nat) : (shr x n).getLsbD i = x.getLsbD (i + n) := by
  rw [shr, BitVec.getLsbD_ushiftRight, Nat.add_comm]

theorem getLsbD_ch (x y z : Word) {i : Nat} (h : i < 32) :
    (ch x y z).getLsbD i = if x.getLsbD i then y.getLsbD i else z.getLsbD i := by
  rw [ch, BitVec.getLsbD_xor, BitVec.getLsbD_and, BitVec.getLsbD_and, BitVec.getLsbD_not, decide_eq_true h]
  cases x.getLsbD i with
  | true => simp
  | false => simp

theorem getLsbD_maj (x y z : Word) (i : Nat) :
    (maj x y z).getLsbD i = decide (2 ≤ (x.getLsbD i).toNat + (y.getLsbD i).toNat + (z.getLsbD i).toNat) := by
  have majority : ∀ p q r : Bool,
      ((p && q) ^^ (p && r) ^^ (q && r)) = decide (2 ≤ p.toNat + q.toNat + r.toNat) := by decide
  simp only [maj, BitVec.getLsbD_xor, BitVec.getLsbD_and, majority]

theorem ch_allOnes (y z : Word) : ch 0xFFFFFFFF y z = y := by
  apply BitVec.eq_of_getLsbD_eq
  intro i hi
  have one : (0xFFFFFFFF : Word).getLsbD i = true := (BitVec.getLsbD_allOnes (v := 32)).trans (decide_eq_true hi)
  rw [getLsbD_ch _ _ _ hi, one, if_pos rfl]

theorem ch_zero (y z : Word) : ch 0 y z = z := by
  apply BitVec.eq_of_getLsbD_eq
  intro i hi
  rw [getLsbD_ch _ _ _ hi, show (0 : Word).getLsbD i = false from BitVec.getLsbD_zero, if_neg Bool.false_ne_true]

theorem maj_self_left (x z : Word) : maj x x z = x := by
  rw [maj, BitVec.and_self, BitVec.xor_assoc, BitVec.xor_self, BitVec.xor_zero]

/-! ### Bits of the sigma functions (R85, R86) -/

/-- A large sigma: the exclusive or of three rotations (R85). -/
theorem getLsbD_rotr_rotr_rotr (x : Word) {k l m i : Nat} (hk : k < 32) (hl : l < 32) (hm : m < 32) (hi : i < 32) :
    (rotr x k ^^^ rotr x l ^^^ rotr x m).getLsbD i =
      (x.getLsbD ((i + k) % 32) ^^ x.getLsbD ((i + l) % 32) ^^ x.getLsbD ((i + m) % 32)) := by
  rw [BitVec.getLsbD_xor, BitVec.getLsbD_xor, getLsbD_rotr x hk hi, getLsbD_rotr x hl hi, getLsbD_rotr x hm hi]

/-- A small sigma: the exclusive or of two rotations and a shift (R86). -/
theorem getLsbD_rotr_rotr_shr (x : Word) {k l i : Nat} (m : Nat) (hk : k < 32) (hl : l < 32) (hi : i < 32) :
    (rotr x k ^^^ rotr x l ^^^ shr x m).getLsbD i =
      (x.getLsbD ((i + k) % 32) ^^ x.getLsbD ((i + l) % 32) ^^ x.getLsbD (i + m)) := by
  rw [BitVec.getLsbD_xor, BitVec.getLsbD_xor, getLsbD_rotr x hk hi, getLsbD_rotr x hl hi, getLsbD_shr]

/-! ### The rounds by index (R90) -/

/-- Two lists of one length, paired, by index. -/
theorem zip_eq_map_range {α β : Type} (xs : List α) (ys : List β) (a : α) (b : β) (h : ys.length = xs.length) :
    xs.zip ys = (List.range xs.length).map fun t => (xs.getD t a, ys.getD t b) := by
  apply List.ext_getElem
  · simp [h]
  · intro t ht _
    obtain ⟨hx, hy⟩ : t < xs.length ∧ t < ys.length := by simpa using ht
    simp [hx, hy]

/-- Rounds 0 to 63 in that order, with `K[t]` and `W[t]` (R90). -/
theorem runRounds_eq_foldl_range (v : Vars) (ws : List Word) (h : ws.length = 64) :
    runRounds v ws =
      (List.range 64).foldl (fun v t => roundStep v (roundConstants.getD t 0) (ws.getD t 0)) v := by
  rw [runRounds, zip_eq_map_range roundConstants ws 0 0 h, List.foldl_map]
  rfl

theorem compress_eq_foldl_range (s : HashWords) (blk : Block) :
    compress s blk = feedForward s ((List.range 64).foldl
      (fun v t => roundStep v (roundConstants.getD t 0) ((schedule blk).getD t 0)) (seed s)) := by
  rw [compress, runRounds_eq_foldl_range _ _ (length_schedule blk)]

/-! ### The halves of the counter (R94) -/

/-- The halves after a byte, as one number. -/
theorem absorb_halves (c : Context) (b : Byte) :
    (absorb c b).totalHi.toNat * 2 ^ 32 + (absorb c b).totalLo.toNat =
      (c.totalHi.toNat * 2 ^ 32 + c.totalLo.toNat + 8) % 2 ^ 64 := by
  rw [← total_toNat, absorb_total, BitVec.toNat_add, total_toNat]
  rfl

theorem absorb_totalLo (c : Context) (b : Byte) : (absorb c b).totalLo = c.totalLo + 8 := by
  have h := absorb_halves c b
  bv_omega

/-- The carry into the high half (R94). -/
theorem absorb_totalHi (c : Context) (b : Byte) :
    (absorb c b).totalHi = if 0xFFFFFFF8 ≤ c.totalLo then c.totalHi + 1 else c.totalHi := by
  have h := absorb_halves c b
  split
  next carry => bv_omega
  next noCarry => bv_omega

/-- Under the guard a counter of whole bytes has room for 8 more bits, so that adding them does not wrap (R94, R101). -/
theorem total_add_eight_lt {c : Context} (hbytes : (total c).toNat % 8 = 0) (hroom : canAbsorb c = true) :
    (total c).toNat + 8 < 2 ^ 64 := by
  have hne : total c ≠ 0xFFFFFFFFFFFFFFF8 := by simpa [canAbsorb, maxTotal] using hroom
  bv_omega

theorem absorb_total_toNat {c : Context} (hbytes : (total c).toNat % 8 = 0) (hroom : canAbsorb c = true) (b : Byte) :
    (total (absorb c b)).toNat = (total c).toNat + 8 := by
  rw [absorb_total, BitVec.toNat_add]
  exact Nat.mod_eq_of_lt (total_add_eight_lt hbytes hroom)

/-! ### The obligations -/

/-- Settles O16: the bits of a rotation from the two shifts it is made of, those of a shift from the library. -/
theorem rotateAndShiftBits : Obligations.RotateAndShiftBits := by
  unfold Obligations.RotateAndShiftBits
  refine ⟨fun x n i _ hn hi => ⟨getLsbD_rotr x hn hi, ?_⟩, by decide⟩
  rw [getLsbD_shr]
  split
  next => rfl
  next h => exact BitVec.getLsbD_of_ge _ _ (Nat.le_of_not_lt h)

/-- Settles O17: Ch by the bit of `x`, Maj by the eight values of three bits; the two fixed examples are computed. -/
theorem choiceAndMajorityBits : Obligations.ChoiceAndMajorityBits := by
  unfold Obligations.ChoiceAndMajorityBits
  exact ⟨fun x y z i hi => ⟨getLsbD_ch x y z hi, getLsbD_maj x y z i⟩, fun _ _ _ => ⟨rfl, rfl⟩,
    fun x y z => ⟨ch_allOnes y z, ch_zero y z, maj_self_left x z⟩, by decide, by decide⟩

/-- Settles O20: the rounds by index; what is left is `roundStep`, `seed` and `feedForward` by definition. -/
theorem compressRunsSixtyFourRounds : Obligations.CompressRunsSixtyFourRounds := by
  unfold Obligations.CompressRunsSixtyFourRounds
  exact fun s blk => ⟨rfl, rfl, compress_eq_foldl_range s blk⟩

/-- Settles O21: the halves from the 64-bit sum of Absorb, the low one modulo `2^32`, the high one by the carry. -/
theorem counterCarriesBetweenHalves : Obligations.CounterCarriesBetweenHalves := by
  unfold Obligations.CounterCarriesBetweenHalves
  exact fun c b => ⟨absorb_totalLo c b, absorb_totalHi c b, fun hbytes hroom => absorb_total_toNat hbytes hroom b⟩

/-- Settles O18: each function's amounts put into the bits of its shape; the fixed words are computed. -/
theorem sigmaFunctionBits : Obligations.SigmaFunctionBits := by
  unfold Obligations.SigmaFunctionBits
  refine ⟨fun x i hi => ⟨?_, ?_, ?_, ?_⟩, by decide, by decide, by decide, by decide⟩
  · exact getLsbD_rotr_rotr_rotr x (by decide) (by decide) (by decide) hi
  · exact getLsbD_rotr_rotr_rotr x (by decide) (by decide) (by decide) hi
  · exact getLsbD_rotr_rotr_shr x 3 (by decide) (by decide) hi
  · exact getLsbD_rotr_rotr_shr x 10 (by decide) (by decide) hi

end Sys2Proof.Machine
end

section
/-! PROOFS of the hash command family (spec/41_hash_commands.md): the context operations CanAbsorb, Absorb and Finalize
(R100 to R102), the streaming digest as the block-wise SHA-256 of the padded message (R103, R109), the commands of the
H group and XBYTE (R104 to R108), and the streams `hash` and `matches` (R71, R107, R111, R122). -/

namespace Sys2Proof.Machine

/-! ### Room for one more byte (R101) -/

/-- The maximum counter as its two halves. -/
theorem total_eq_maxTotal_iff (c : Context) : total c = maxTotal ↔ c.totalHi = 0xFFFFFFFF ∧ c.totalLo = 0xFFFFFFF8 := by
  have ht := total_toNat c
  unfold maxTotal
  constructor
  · intro h
    rw [h] at ht
    constructor <;> bv_omega
  · rintro ⟨hhi, hlo⟩
    rw [hhi, hlo] at ht
    exact BitVec.eq_of_toNat_eq ht

theorem canAbsorb_iff (c : Context) : canAbsorb c = true ↔ total c ≠ maxTotal := by
  simp [canAbsorb]

theorem canAbsorb_of_lt {c : Context} (h : (total c).toNat + 8 < 2 ^ 64) : canAbsorb c = true := by
  rw [canAbsorb_iff]
  intro hmax
  rw [hmax] at h
  exact absurd h (by decide)

/-! ### Absorb (R100) -/

theorem fill_absorb (c : Context) (b : Byte) : fill (absorb c b) = (fill c + 1) % 64 := by
  have ht : (total (absorb c b)).toNat = ((total c).toNat + 8) % 2 ^ 64 := by
    rw [absorb_total, BitVec.toNat_add]
    rfl
  simp only [fill, ht]
  omega

/-! ### Finalize, byte by byte (R102, R43) -/

/-- The buffer with 0x80 behind the bytes it holds and zeros from there up to `hi` (R102). -/
def markedBlock (c : Context) (hi : Nat) : Block :=
  zeroRange (putByte c.buffer (fill c) padByte) (fill c + 1) hi

theorem getElem_markedBlock (c : Context) {hi i : Nat} (hlt : i < hi) (h : i < 64) :
    (markedBlock c hi)[i] = if i < fill c then c.buffer[i] else if i = fill c then padByte else 0 := by
  rw [markedBlock, getElem_zeroRange _ _ _ _ h, getElem_putByte _ _ _ _ h]
  obtain hl | rfl | hg := Nat.lt_trichotomy i (fill c)
  · rw [if_neg (by omega), if_neg (by omega), if_pos hl]
  · simp
  · rw [if_pos (by omega), if_neg (by omega), if_neg (by omega)]

/-- With room for the length field Finalize runs no transform before the last block. -/
theorem padStart_of_room {c : Context} (h : fill c ≤ 55) : padStart c = (c.state, markedBlock c 56) :=
  if_neg (by omega)

/-- Without room the marked buffer is a block of its own, and the last one starts empty. -/
theorem padStart_of_no_room {c : Context} (h : 56 ≤ fill c) :
    padStart c = (compress c.state (markedBlock c 64), zeroRange (markedBlock c 64) 0 56) :=
  if_pos h

theorem getElem_lastBlock_of_lt (c : Context) {i : Nat} (h : i < 56) : (lastBlock c)[i] = (padStart c).2[i] := by
  rw [lastBlock, getElem_putLength _ _ _ (by omega), dif_neg (by omega)]

theorem getElem_lastBlock_length (c : Context) {k : Nat} (h : k < 8) :
    (lastBlock c)[56 + k] = (bytes64 (total c))[k] := by
  rw [lastBlock, getElem_putLength _ _ _ (by omega), dif_pos (by omega)]
  simp

theorem getElem_lastBlock_of_room {c : Context} (hf : fill c ≤ 55) {i : Nat} (h : i < 56) :
    (lastBlock c)[i] = if i < fill c then c.buffer[i] else if i = fill c then padByte else 0 := by
  rw [getElem_lastBlock_of_lt c h]
  simp only [padStart_of_room hf, getElem_markedBlock c h (by omega)]

theorem getElem_lastBlock_of_no_room {c : Context} (hf : 56 ≤ fill c) {i : Nat} (h : i < 56) :
    (lastBlock c)[i] = 0 := by
  rw [getElem_lastBlock_of_lt c h]
  simp only [padStart_of_no_room hf, getElem_zeroRange _ _ _ _ (by omega : i < 64)]
  exact if_pos ⟨Nat.zero_le i, h⟩

/-- The length bytes: those of the high half before those of the low half (R43). -/
theorem bytes64_total (c : Context) :
    bytes64 (total c) =
      #v[c.totalHi.extractLsb' 24 8, c.totalHi.extractLsb' 16 8, c.totalHi.extractLsb' 8 8, c.totalHi.extractLsb' 0 8,
        c.totalLo.extractLsb' 24 8, c.totalLo.extractLsb' 16 8, c.totalLo.extractLsb' 8 8,
        c.totalLo.extractLsb' 0 8] := by
  simp (disch := omega) only [bytes64, total, BitVec.extractLsb'_append_eq_of_le, Nat.reduceSub,
    BitVec.extractLsb'_append_eq_of_add_le]

/-! ### The padded message (R103, R109) -/

/-- The length field takes the last 8 bytes of block `floor((n + 8) / 64)`. -/
theorem lengthField_position (n : Nat) : n + 1 + zeroFill n = 64 * ((n + 8) / 64) + 56 := by
  unfold zeroFill
  omega

theorem length_paddedMessage (m : List Byte) : (paddedMessage m).length = 64 * ((m.length + 8) / 64 + 1) := by
  have h := lengthField_position m.length
  simp only [paddedMessage, List.length_append, List.length_singleton, List.length_replicate, Vector.length_toList]
  omega

theorem length_messageBlocks (m : List Byte) : (messageBlocks m).length = (m.length + 8) / 64 + 1 := by
  rw [messageBlocks, length_cutBlocks, length_paddedMessage]
  omega

theorem length_markedMessage (m : List Byte) :
    (m ++ [padByte] ++ List.replicate (zeroFill m.length) 0).length = m.length + 1 + zeroFill m.length := by
  rw [List.length_append, List.length_append, List.length_singleton, List.length_replicate]

theorem getD_paddedMessage_of_lt (m : List Byte) {j : Nat} (h : j < m.length + 1 + zeroFill m.length) :
    (paddedMessage m).getD j 0 = if j < m.length then m.getD j 0 else if j = m.length then padByte else 0 := by
  rw [paddedMessage, List.getD_append _ _ _ _ (by rwa [length_markedMessage])]
  obtain hl | rfl | hg := Nat.lt_trichotomy j m.length
  · rw [if_pos hl, List.append_assoc, List.getD_append _ _ _ _ hl]
  · simp
  · rw [if_neg (by omega), if_neg (by omega), List.getD_append_right _ _ _ _ (by simpa using hg)]
    simp

theorem getD_paddedMessage_lengthField (m : List Byte) {k : Nat} (h : k < 8) :
    (paddedMessage m).getD (m.length + 1 + zeroFill m.length + k) 0 =
      (bytes64 (BitVec.ofNat 64 (8 * m.length)))[k] := by
  rw [paddedMessage, List.getD_append_right _ _ _ _ (by rw [length_markedMessage]; omega), length_markedMessage,
    Nat.add_sub_cancel_left]
  simp [h]

theorem getElem_blockOf_drop (bs : List Byte) (n i : Nat) (h : i < 64) :
    (blockOf (bs.drop n))[i] = bs.getD (n + i) 0 := by
  rw [getElem_blockOf _ _ h, List.getD_eq_getElem?_getD, List.getD_eq_getElem?_getD, List.getElem?_drop]

/-! ### Finalize after a message works on the padded message (R109) -/

/-- The marked buffer is what the padded message has in the block where the message ends. -/
theorem getElem_markedBlock_absorbAll_created (m : List Byte) {hi i : Nat} (hlt : i < hi) (h : i < 64)
    (hj : 64 * (m.length / 64) + i < m.length + 1 + zeroFill m.length) :
    (markedBlock (absorbAll created m) hi)[i] = (paddedMessage m).getD (64 * (m.length / 64) + i) 0 := by
  have hm := Nat.div_add_mod m.length 64
  rw [getElem_markedBlock _ hlt h, getD_paddedMessage_of_lt m hj, fill_absorbAll_created]
  obtain hl | he | hg := Nat.lt_trichotomy i (m.length % 64)
  · rw [if_pos hl, if_pos (by omega), getElem_buffer_absorbAll_created m i h hl]
  · rw [if_neg (by omega), if_pos he, if_neg (by omega), if_pos (by omega)]
  · rw [if_neg (by omega), if_neg (by omega), if_neg (by omega), if_neg (by omega)]

/-- Before its last transform Finalize has compressed every block of the padded message but the last. -/
theorem padStart_state_absorbAll_created (m : List Byte) :
    (padStart (absorbAll created m)).1 =
      (cutBlocks ((m.length + 8) / 64) (paddedMessage m)).foldl compress iv := by
  have hfill := fill_absorbAll_created m
  have hpos := lengthField_position m.length
  have whole : cutBlocks (m.length / 64) (paddedMessage m) = cutBlocks (m.length / 64) m := by
    rw [paddedMessage, List.append_assoc, List.append_assoc, cutBlocks_append _ _ _ (Nat.mul_div_le _ _)]
  obtain hf | hf := Nat.lt_or_ge (fill (absorbAll created m)) 56
  · rw [padStart_of_room (by omega), show (m.length + 8) / 64 = m.length / 64 by omega, whole,
      state_absorbAll_created]
  · have firstBlock : markedBlock (absorbAll created m) 64 = blockOf ((paddedMessage m).drop (64 * (m.length / 64))) := by
      apply Vector.ext
      intro i hi
      rw [getElem_markedBlock_absorbAll_created m hi hi (by omega), getElem_blockOf_drop _ _ _ hi]
    rw [padStart_of_no_room hf, show (m.length + 8) / 64 = m.length / 64 + 1 by omega, cutBlocks_succ, whole,
      List.foldl_append, ← state_absorbAll_created, firstBlock]
    rfl

/-- The last block Finalize builds is the last of the padded message. -/
theorem lastBlock_absorbAll_created (m : List Byte) :
    lastBlock (absorbAll created m) = blockOf ((paddedMessage m).drop (64 * ((m.length + 8) / 64))) := by
  have hfill := fill_absorbAll_created m
  have hpos := lengthField_position m.length
  apply Vector.ext
  intro i hi
  rw [getElem_blockOf_drop _ _ _ hi]
  obtain hlt | hge := Nat.lt_or_ge i 56
  · obtain hf | hf := Nat.lt_or_ge (fill (absorbAll created m)) 56
    · rw [getElem_lastBlock_of_room (Nat.le_of_lt_succ hf) hlt, ← getElem_markedBlock _ hlt hi,
        show (m.length + 8) / 64 = m.length / 64 by omega,
        getElem_markedBlock_absorbAll_created m hlt hi (by omega)]
    · rw [getElem_lastBlock_of_no_room hf hlt, getD_paddedMessage_of_lt m (by omega), if_neg (by omega),
        if_neg (by omega)]
  · obtain ⟨k, rfl⟩ := Nat.exists_eq_add_of_le hge
    have htotal : total (absorbAll created m) = BitVec.ofNat 64 (8 * m.length) := by simp [total_absorbAll]
    simp only [getElem_lastBlock_length _ (by omega : k < 8), htotal]
    rw [← getD_paddedMessage_lengthField m (by omega), hpos, Nat.add_assoc]

/-- The streaming digest is the block-wise one. -/
theorem finalize_absorbAll_created (m : List Byte) : (finalize (absorbAll created m)).2 = sha256 m := by
  have hblocks : (paddedMessage m).length / 64 = (m.length + 8) / 64 + 1 := by
    rw [length_paddedMessage, Nat.mul_div_cancel_left _ (by decide)]
  rw [finalize_digest, finalWords, padStart_state_absorbAll_created, lastBlock_absorbAll_created, sha256, messageBlocks,
    hblocks, cutBlocks_succ, List.foldl_append]
  rfl

/-! ### A command with no fault recorded, in correct use and out of place (R130, R131) -/

theorem exec_of_correctUse {i : Instr} {s : State} (hf : s.fcode = .none) (hc : correctUse i s = true) :
    exec i s = .next (effect i s) := by
  rw [exec_of_free hf, checked, if_pos hc]

theorem exec_of_misuse {i : Instr} {s : State} {code : FaultCode} {w : CmdWord} (hf : s.fcode = .none)
    (hc : correctUse i s = false) (hcode : faultOf i s = code) (hw : encode i = w) :
    exec i s = .next { s with fcode := code, fcmd := w } := by
  rw [exec_of_free hf, checked, if_neg (by simp [hc]), hcode, hw, raiseFault_eq]

/-- The word of a format D command is its opcode's word plus the data byte (R64, R66). -/
theorem wordOf_eq_add (op : BitVec 4) (b : Byte) : wordOf op b = wordOf op 0 + b.setWidth 16 := by
  have hb := b.isLt
  have hop := op.isLt
  apply BitVec.eq_of_toNat_eq
  simp only [BitVec.toNat_add, wordOf_toNat, BitVec.toNat_setWidth, show (0 : Byte).toNat = 0 from rfl]
  omega

/-- The comparison as the decision HMATCH and MMATCH are stated with (R107, R122). -/
theorem digestEq_eq_decide (d e : Digest) : digestEq d e = decide (∀ i : Fin 32, d[i] = e[i]) := by
  rw [Bool.eq_iff_iff, digestEq_iff, decide_eq_true_iff]
  exact ⟨fun h i => by rw [h], fun h => Vector.ext fun i hi => h ⟨i, hi⟩⟩

theorem exec_hinit {s : State} (hf : s.fcode = .none) :
    exec .hinit s = .next (setH s { s.h with ctx := created, hused := false, hdv := false, heq := false }) :=
  exec_of_correctUse hf rfl

theorem exec_hbyte_of_room {s : State} (hf : s.fcode = .none) (hopen : s.h.hused = false)
    (hroom : canAbsorb s.h.ctx = true) (b : Byte) :
    exec (.hbyte b) s = .next (setH s { s.h with ctx := absorb s.h.ctx b }) :=
  exec_of_correctUse hf (by simp [correctUse, hopen, hroom])

theorem exec_hfinal_of_open {s : State} (hf : s.fcode = .none) (hopen : s.h.hused = false) :
    exec .hfinal s = .next (setH s (publishDigest s.h)) :=
  exec_of_correctUse hf (by simp [correctUse, hopen])

theorem exec_hmatch_of_open {s : State} (hf : s.fcode = .none) (hopen : s.h.hused = false) :
    exec .hmatch s = .next (setH s { publishDigest s.h with heq := digestEq (finalize s.h.ctx).2 s.exp }) :=
  exec_of_correctUse hf (by simp [correctUse, hopen])

theorem exec_xbyte {s : State} (hf : s.fcode = .none) (b : Byte) :
    exec (.xbyte b) s = .next (setExp s (shiftIn s.exp b)) :=
  exec_of_correctUse hf rfl

theorem exec_mbyte_of_room {s : State} (hf : s.fcode = .none) (hready : s.m.mphase = .ready)
    (hroom : canAbsorb s.m.inner = true) (b : Byte) :
    exec (.mbyte b) s = .next (setM s { s.m with inner := absorb s.m.inner b }) :=
  exec_of_correctUse hf (by simp [correctUse, hready, hroom])

theorem exec_mmatch_of_ready {s : State} (hf : s.fcode = .none) (hready : s.m.mphase = .ready) :
    exec .mmatch s = .next (setM s { macFinal s.m with meq := digestEq (macFinal s.m).md s.exp }) :=
  exec_of_correctUse hf (by simp [correctUse, hready])

/-! ### Streams of byte commands (R108, R109, R120) -/

/-- The expected-value register keeps the last 32 bytes of what it held followed by what came (R108). -/
theorem toList_shiftIn (e : Digest) (b : Byte) : (shiftIn e b).toList = (e.toList ++ [b]).drop 1 := by
  apply List.ext_getElem
  · simp
  · intro i hi _
    have h : i < 32 := by simpa using hi
    simp only [Vector.getElem_toList, getElem_shiftIn e b i h, List.getElem_drop, List.getElem_append,
      Vector.length_toList]
    split
    next hlt =>
      rw [dif_pos (by omega)]
      simp [Nat.add_comm]
    next hge =>
      rw [dif_neg (by omega)]
      simp

theorem toList_foldl_shiftIn (e : Digest) (bs : List Byte) :
    (bs.foldl shiftIn e).toList = (e.toList ++ bs).drop bs.length := by
  induction bs generalizing e with
  | nil => simp
  | cons b bs ih =>
    have hlen : 1 ≤ (e.toList ++ [b]).length := by simp
    rw [List.foldl_cons, ih, toList_shiftIn, ← List.drop_append_of_le_length hlen, List.drop_drop, List.append_assoc,
      List.length_cons, Nat.add_comm]
    rfl

@[simp] theorem setExp_setExp (s : State) (d e : Digest) : setExp (setExp s d) e = setExp s e := rfl

theorem runCommands_loadExpected {s : State} (hf : s.fcode = .none) (bs : List Byte) :
    runCommands (loadExpected bs) s = .next (setExp s (bs.foldl shiftIn s.exp)) := by
  induction bs generalizing s with
  | nil => rfl
  | cons b bs ih =>
    have hrest := ih ((setExp_fcode s (shiftIn s.exp b)).trans hf)
    rw [setExp_exp, setExp_setExp] at hrest
    rw [loadExpected, List.map_cons, runCommands_cons (exec_xbyte hf b), List.foldl_cons]
    exact hrest

/-- 32 bytes replace the expected value whatever it was (R156). -/
theorem runCommands_loadExpected_digest {s : State} (hf : s.fcode = .none) (e : Digest) :
    runCommands (loadExpected e.toList) s = .next (setExp s e) := by
  have h : e.toList.foldl shiftIn s.exp = e := by
    apply Vector.toList_inj.mp
    rw [toList_foldl_shiftIn, List.drop_left' (by simp)]
  rw [runCommands_loadExpected hf, h]

/-- A stream of commands that each absorb their byte into a context with room absorbs the message, if the counter can
count it (R101). -/
theorem runCommands_absorbAll {cmd : Byte → Instr} {put : Context → State}
    (hcmd : ∀ b c, canAbsorb c = true → exec (cmd b) (put c) = .next (put (absorb c b))) (m : List Byte) {c : Context}
    (hlen : (total c).toNat + 8 * m.length < 2 ^ 64) :
    runCommands (m.map cmd) (put c) = .next (put (absorbAll c m)) := by
  induction m generalizing c with
  | nil => rfl
  | cons b m ih =>
    rw [List.length_cons] at hlen
    have hroom : (total c).toNat + 8 < 2 ^ 64 := by omega
    have htotal : (total (absorb c b)).toNat = (total c).toNat + 8 := by
      rw [absorb_total, BitVec.toNat_add]
      exact Nat.mod_eq_of_lt hroom
    rw [List.map_cons, runCommands_cons (hcmd b c (canAbsorb_of_lt hroom)), absorbAll_cons]
    exact ih (by omega)

theorem runCommands_hashUpdate {s : State} (hf : s.fcode = .none) (hopen : s.h.hused = false) {m : List Byte}
    (hlen : (total s.h.ctx).toNat + 8 * m.length < 2 ^ 64) :
    runCommands (hashUpdate m) s = .next (setH s { s.h with ctx := absorbAll s.h.ctx m }) :=
  runCommands_absorbAll (cmd := .hbyte) (put := fun c => setH s { s.h with ctx := c })
    (fun b c hroom => exec_hbyte_of_room (s := setH s { s.h with ctx := c }) hf hopen hroom b) m (c := s.h.ctx) hlen

theorem runCommands_hmacUpdate {s : State} (hf : s.fcode = .none) (hready : s.m.mphase = .ready) {m : List Byte}
    (hlen : (total s.m.inner).toNat + 8 * m.length < 2 ^ 64) :
    runCommands (hmacUpdate m) s = .next (setM s { s.m with inner := absorbAll s.m.inner m }) :=
  runCommands_absorbAll (cmd := .mbyte) (put := fun c => setM s { s.m with inner := c })
    (fun b c hroom => exec_mbyte_of_room (s := setM s { s.m with inner := c }) hf hready hroom b) m
    (c := s.m.inner) hlen

/-- `hash.new` and `hash.update` from any state without a fault: an open context that holds the message (R109). -/
theorem runCommands_hashNew_hashUpdate {s : State} (hf : s.fcode = .none) {m : List Byte}
    (hlen : m.length ≤ 2 ^ 61 - 1) :
    ∃ t, runCommands (hashNew ++ hashUpdate m) s = .next t ∧ t.h.ctx = absorbAll created m ∧ t.h.hused = false ∧
      t.fcode = .none ∧ t.m = s.m ∧ t.exp = s.exp := by
  have hcount : (total created).toNat + 8 * m.length < 2 ^ 64 := by
    rw [total_created, show (0 : Count).toNat = 0 from rfl]
    omega
  have hnew := runCommands_cons (exec_hinit hf) (hashUpdate m)
  have hupdate := runCommands_hashUpdate
    (s := setH s { s.h with ctx := created, hused := false, hdv := false, heq := false }) hf rfl hcount
  exact ⟨_, hnew.trans hupdate, rfl, rfl, hf, rfl, rfl⟩

/-- The MAC of a message absorbed after the inner pad (R116, R121). -/
theorem macFinal_md {m : HmacUnit} {msg : List Byte} (h : m.inner = absorbAll (primedContext m.ik) msg) :
    (macFinal m).md = macWith m.ik m.ok msg := by
  have hinner : (finalize m.inner).2 = sha256 (m.ik.toList ++ msg) := by
    rw [h, primedContext, ← absorbAll_append, finalize_absorbAll_created]
  calc (macFinal m).md
      = (finalize (outerLoaded m.ok (finalize m.inner).2)).2 := rfl
    _ = macWith m.ik m.ok msg := by
      rw [hinner, outerLoaded, ← absorbAll_append, finalize_absorbAll_created, macWith]

/-- The flag of a comparison with the register, as a statement on the bytes sent (R107). -/
theorem digestEq_iff_toList (d e : Digest) : digestEq d e = true ↔ e.toList = d.toList := by
  rw [digestEq_iff, Vector.toList_inj, eq_comm]

/-- `hash.matches` on an open context compares the bytes sent with the digest and publishes it (R71, R107). -/
theorem runCommands_hashMatches {s : State} (hf : s.fcode = .none) (hopen : s.h.hused = false) (e : Digest) :
    ∃ t, runCommands (hashMatches e.toList) s = .next t ∧
      (t.h.heq = true ↔ e.toList = (finalize s.h.ctx).2.toList) ∧ t.h.hd = (finalize s.h.ctx).2 ∧ t.h.hdv = true ∧
      t.fcode = .none := by
  have hx := exec_hmatch_of_open ((setExp_fcode s e).trans hf) hopen
  rw [setExp_h, setExp_exp] at hx
  have hrun : runCommands (hashMatches e.toList) s = _ :=
    (runCommands_append (runCommands_loadExpected_digest hf e) _).trans (runCommands_cons hx [])
  refine ⟨_, hrun, ?_, rfl, rfl, (setExp_fcode s e).trans hf⟩
  simp only [setH_h, digestEq_iff_toList]

/-- `hmac.matches` in READY compares the bytes sent with the MAC and publishes it (R71, R122). -/
theorem runCommands_hmacMatches {s : State} (hf : s.fcode = .none) (hready : s.m.mphase = .ready) (e : Digest) :
    ∃ t, runCommands (hmacMatches e.toList) s = .next t ∧
      (t.m.meq = true ↔ e.toList = (macFinal s.m).md.toList) ∧ t.m.md = (macFinal s.m).md ∧ t.m.mdv = true ∧
      t.fcode = .none := by
  have hx := exec_mmatch_of_ready ((setExp_fcode s e).trans hf) hready
  rw [setExp_m, setExp_exp] at hx
  have hrun : runCommands (hmacMatches e.toList) s = _ :=
    (runCommands_append (runCommands_loadExpected_digest hf e) _).trans (runCommands_cons hx [])
  refine ⟨_, hrun, ?_, rfl, rfl, (setExp_fcode s e).trans hf⟩
  simp only [setM_m, digestEq_iff_toList]

/-! ### The obligations -/

/-- Settles O22: the maximum counter by its halves; on whole bytes every other counter has room for 8 bits. -/
theorem canAbsorbIsRoomForOneByte : Obligations.CanAbsorbIsRoomForOneByte := by
  unfold Obligations.CanAbsorbIsRoomForOneByte
  intro c
  constructor
  · rw [canAbsorb_iff, Ne, total_eq_maxTotal_iff]
  · exact fun hbytes => ⟨total_add_eight_lt hbytes, canAbsorb_of_lt⟩

/-- Settles O23: the buffer, the counter and the state of Absorb, each by its own lemma. -/
theorem absorbStoresCountsAndTransforms : Obligations.AbsorbStoresCountsAndTransforms := by
  unfold Obligations.AbsorbStoresCountsAndTransforms
  intro c b
  refine ⟨fun i h => ?_, absorb_total c b, fill_absorb c b, fun hf => ?_, fun hf => ?_⟩
  · simp only [absorb_buffer, getElem_putByte _ _ _ _ h, eq_comm]
  · rw [absorb_state, if_neg hf]
  · rw [absorb_state, if_pos hf, absorb_buffer]

/-- Settles O24: the marked buffer is the only padded block or the first of two, by the fill. -/
theorem finalizePadsAndTransforms : Obligations.FinalizePadsAndTransforms := by
  unfold Obligations.FinalizePadsAndTransforms
  intro c
  refine ⟨total_finalize c, rfl, ?_, fun hf => ⟨?_, fun i h => getElem_lastBlock_of_room hf h⟩, fun hf =>
    ⟨markedBlock c 64, fun i h => getElem_markedBlock c h h, ?_, fun i h => getElem_lastBlock_of_no_room hf h⟩⟩
  · have len {k : Nat} (h : k < 8) := getElem_lastBlock_length c h
    simp only [bytes64_total] at len
    exact ⟨len (k := 0) (by decide), len (k := 1) (by decide), len (k := 2) (by decide), len (k := 3) (by decide),
      len (k := 4) (by decide), len (k := 5) (by decide), len (k := 6) (by decide), len (k := 7) (by decide)⟩
  · rw [finalize_state, finalWords, padStart_of_room hf, finalize_buffer]
  · rw [finalize_state, finalWords, padStart_of_no_room hf, finalize_buffer]

/-- Settles O26: Finalize after a message compresses the blocks of the padded message, for every length. -/
theorem streamingDigestIsBlockwiseDigest : Obligations.StreamingDigestIsBlockwiseDigest := by
  unfold Obligations.StreamingDigestIsBlockwiseDigest
  exact fun m _ => finalize_absorbAll_created m

/-- Settles O27: the place of the length field gives the length, and the rest is arithmetic of the least fill. -/
theorem paddedMessageIsWholeBlocks : Obligations.PaddedMessageIsWholeBlocks := by
  unfold Obligations.PaddedMessageIsWholeBlocks
  intro m
  rw [length_paddedMessage, length_messageBlocks]
  refine ⟨Nat.mul_mod_right _ _, fun z hz => ?_, rfl, ?_⟩
  · unfold zeroFill
    omega
  · split
    next => omega
    next => omega

/-- Settles O35: the register is the shift of the bytes sent, and its list is a suffix. -/
theorem xbytesLoadExpectedValue : Obligations.XbytesLoadExpectedValue := by
  unfold Obligations.XbytesLoadExpectedValue
  intro s bs hf
  refine ⟨_, runCommands_loadExpected hf bs, fun i h => ?_⟩
  rw [← Vector.getElem_toList (by simpa using h)]
  simp only [toList_foldl_shiftIn, List.getElem_drop]
  rw [List.getD_eq_getElem]

/-- Settles O52: the stream is the creation, the message and HFINAL. -/
theorem hashStreamComputesSha256 : Obligations.HashStreamComputesSha256 := by
  unfold Obligations.HashStreamComputesSha256
  intro s m hf hlen
  obtain ⟨t, hrun, hctx, hopen, htf, hm, hexp⟩ := runCommands_hashNew_hashUpdate hf hlen
  rw [hashMessage, runCommands_append hrun, hashFinalize, runCommands_cons (exec_hfinal_of_open htf hopen)]
  refine ⟨_, rfl, ?_, rfl, rfl, rfl, htf, hm, hexp⟩
  rw [← finalize_absorbAll_created m, ← hctx]
  rfl

/-- Settles O57: the message goes into the unit's context, and the comparison is with the digest or MAC of that. -/
theorem matchesAnswersEquality : Obligations.MatchesAnswersEquality := by
  unfold Obligations.MatchesAnswersEquality
  intro s e m hf he
  obtain ⟨e, rfl⟩ : ∃ d : Digest, d.toList = e := ⟨⟨⟨e⟩, he⟩, rfl⟩
  constructor
  · intro hlen
    obtain ⟨u, hrun, hctx, hopen, huf, -, -⟩ := runCommands_hashNew_hashUpdate hf hlen
    rw [runCommands_append hrun, ← finalize_absorbAll_created m, ← hctx]
    exact runCommands_hashMatches huf hopen e
  · intro hready hprimed hlen
    have hcount : (total s.m.inner).toNat + 8 * m.length < 2 ^ 64 := by
      rw [hprimed, total_primedContext]
      omega
    have hmd : (macFinal { s.m with inner := absorbAll s.m.inner m }).md = macWith s.m.ik s.m.ok m :=
      macFinal_md (by rw [hprimed])
    rw [runCommands_append (runCommands_hmacUpdate hf hready hcount), ← hmd]
    exact runCommands_hmacMatches (s := setM s { s.m with inner := absorbAll s.m.inner m }) hf hready e

/-- Settles O30: HINIT checks nothing; the reset state is one that it already leaves. -/
theorem hinitMeaning : Obligations.HinitMeaning := by
  unfold Obligations.HinitMeaning
  exact ⟨fun _ => exec_hinit, rfl, exec_hinit rfl⟩

/-- Settles O31: the two faults in the order of the checks, and the effect. -/
theorem hbyteMeaning : Obligations.HbyteMeaning := by
  unfold Obligations.HbyteMeaning
  intro b s hf
  have hw : encode (.hbyte b) = 0x2000 + b.setWidth 16 := wordOf_eq_add 0x2 b
  refine ⟨hw, fun hu => ?_, fun hu hr => ?_, fun hu hr => ?_⟩
  · exact exec_of_misuse hf (by simp [correctUse, hu]) (by simp [faultOf, correctUse, hu]) hw
  · exact exec_of_misuse hf (by simp [correctUse, hr]) (by simp [faultOf, correctUse, hu, hr]) hw
  · exact exec_hbyte_of_room hf hu hr b

/-- Settles O32: the fault of a used context, and the effect on an open one. -/
theorem hfinalMeaning : Obligations.HfinalMeaning := by
  unfold Obligations.HfinalMeaning
  intro s hf
  refine ⟨rfl, fun hu => ?_, fun hu => ?_⟩
  · exact exec_of_misuse hf (by simp [correctUse, hu]) (by simp [faultOf, correctUse, hu]) rfl
  · exact exec_hfinal_of_open hf hu

/-- Settles O33: as HFINAL, with the comparison as a decision over the 32 bytes. -/
theorem hmatchMeaning : Obligations.HmatchMeaning := by
  unfold Obligations.HmatchMeaning
  intro s hf
  refine ⟨rfl, fun hu => ?_, fun hu => ?_⟩
  · exact exec_of_misuse hf (by simp [correctUse, hu]) (by simp [faultOf, correctUse, hu]) rfl
  · rw [← digestEq_eq_decide]
    exact exec_hmatch_of_open hf hu

/-- Settles O34: XBYTE checks nothing, and the shifted register by its bytes. -/
theorem xbyteMeaning : Obligations.XbyteMeaning := by
  unfold Obligations.XbyteMeaning
  intro b s hf
  refine ⟨wordOf_eq_add 0x5 b, shiftIn s.exp b, exec_xbyte hf b, ?_, fun i h => ?_⟩
  · rw [getElem_shiftIn, dif_neg (by decide)]
  · rw [getElem_shiftIn, dif_pos h]

end Sys2Proof.Machine
end

section
/-! PROOFS of the HMAC command family (spec/42_hmac_commands.md): the pad edits of KBYTE and KEND (R118, R119), priming
and the outer pass (R115, R116), the commands of the M group (R117 to R123), and the streams of a key and of messages
under it (R124 to R127). -/

namespace Sys2Proof.Machine

/-! ### The pads while a key is loaded and at its end (R118, R119) -/

theorem putByte_of_le {n : Nat} (h : 64 ≤ n) (buf : Block) (b : Byte) : putByte buf n b = buf := by
  apply Vector.ext
  intro i hi
  rw [getElem_putByte _ _ _ _ hi, if_neg (by omega)]

/-- The test of R118 is the bound of the block: a byte behind the block is not stored. -/
theorem loadKeyByte_eq (m : HmacUnit) (b : Byte) :
    loadKeyByte m b =
      { m with ik := putByte m.ik ((total m.inner).toNat / 8) (b ^^^ ipad),
               ok := putByte m.ok ((total m.inner).toNat / 8) (b ^^^ opad) } := by
  unfold loadKeyByte
  dsimp only
  split
  next => rfl
  next h => rw [putByte_of_le (Nat.le_of_not_lt h), putByte_of_le (Nat.le_of_not_lt h)]

theorem finishPads_of_short {m : HmacUnit} (h : (total m.inner).toNat ≤ 512) : finishPads m = m :=
  if_neg (Nat.not_lt.mpr h)

theorem finishPads_of_long {m : HmacUnit} (h : 512 < (total m.inner).toNat) :
    finishPads m =
      { m with inner := (finalize m.inner).1, ik := digestPad (finalize m.inner).2 ipad,
               ok := digestPad (finalize m.inner).2 opad } :=
  if_pos h

/-- Priming after KEND's pad rule: the key hasher it leaves is not read again. -/
theorem prime_finishPads (m : HmacUnit) :
    prime (finishPads m) =
      { m with ik := (finishPads m).ik, ok := (finishPads m).ok, inner := primedContext (finishPads m).ik } := by
  obtain h | h := Nat.lt_or_ge 512 (total m.inner).toNat
  · rw [finishPads_of_long h, prime]
  · rw [finishPads_of_short h, prime]

/-! ### The key of an HMAC unit (R124, R126) -/

theorem keyBlock_of_short {k : List Byte} (h : k.length ≤ 64) : keyBlock k = blockOf k := if_pos h

theorem keyBlock_of_long {k : List Byte} (h : 64 < k.length) : keyBlock k = blockOf (sha256 k).toList :=
  if_neg (Nat.not_le.mpr h)

theorem keyBlock_digest (d : Digest) : keyBlock d.toList = blockOf d.toList := keyBlock_of_short (by simp)

/-- A block has zeros where its list ends, so zeros behind the list change nothing (R126). -/
theorem blockOf_append_zeros (k : List Byte) (z : Nat) : blockOf (k ++ List.replicate z 0) = blockOf k := by
  apply Vector.ext
  intro i hi
  rw [getElem_blockOf _ _ hi, getElem_blockOf _ _ hi]
  obtain hlt | hge := Nat.lt_or_ge i k.length
  · rw [List.getD_append _ _ _ _ hlt]
  · rw [List.getD_append_right _ _ _ _ hge, List.getD_eq_default _ _ hge]
    simp

/-- KEND turns the pads of the key bytes into those of `key'` (R119, R124). -/
theorem finishPads_pads_keyBlock {m : HmacUnit} {k : List Byte} (hk : Absorbed created k m.inner)
    (hik : m.ik = xorPad (blockOf k) ipad) (hok : m.ok = xorPad (blockOf k) opad) :
    (finishPads m).ik = xorPad (keyBlock k) ipad ∧ (finishPads m).ok = xorPad (keyBlock k) opad := by
  have htotal : (total m.inner).toNat = 8 * k.length := by simpa using hk.total_eq
  obtain hs | hl := Nat.lt_or_ge 64 k.length
  · have hdigest : (finalize m.inner).2 = sha256 k := by rw [hk.1, finalize_absorbAll_created]
    rw [finishPads_of_long (by omega), keyBlock_of_long hs, hdigest]
    exact ⟨digestPad_eq_xorPad _ _, digestPad_eq_xorPad _ _⟩
  · rw [finishPads_of_short (by omega), keyBlock_of_short hl]
    exact ⟨hik, hok⟩

/-! ### A context that begins with one whole block (R115, R116) -/

/-- One transform for the block, none for what follows within the next one. -/
theorem state_absorbAll_created_block (blk : Block) {ys : List Byte} (h : ys.length < 64) :
    (absorbAll created (blk.toList ++ ys)).state = compress iv blk := by
  have hlen : (blk.toList ++ ys).length / 64 = 1 := by
    rw [List.length_append, Vector.length_toList]
    omega
  have hblk : blockOf (blk.toList ++ ys) = blk := by
    rw [blockOf_append_of_le (by simp), blockOf_toList]
  rw [state_absorbAll_created, hlen, cutBlocks, hblk]
  rfl

theorem buffer_absorbAll_created_block (blk : Block) : (absorbAll created blk.toList).buffer = blk := by
  obtain h | ⟨m, b, h⟩ := List.eq_nil_or_concat' blk.toList
  · exact absurd (congrArg List.length h) (by simp)
  · have hlen : m.length = 63 := by simpa using (congrArg List.length h).symm
    rw [h, absorbAll_concat, absorb_buffer, fill_absorbAll_created, hlen,
      buffer_absorbAll_created_of_full m b (by omega), hlen, ← h]
    exact blockOf_toList blk

/-! ### Priming and the outer pass (R115, R116) -/

/-- Priming a unit that is primed already changes nothing (R123). -/
theorem prime_of_primed {m : HmacUnit} (h : m.inner = primedContext m.ik) : prime m = m := by
  rw [prime, ← h]

theorem outerLoaded_eq (ok : Block) (d : Digest) : outerLoaded ok d = absorbAll created (ok.toList ++ d.toList) :=
  (absorbAll_append _ _ _).symm

theorem total_outerLoaded (ok : Block) (d : Digest) : total (outerLoaded ok d) = 768 := by
  simp [outerLoaded_eq, total_absorbAll]

theorem fill_outerLoaded (ok : Block) (d : Digest) : fill (outerLoaded ok d) = 32 := by
  simp [fill, total_outerLoaded]

theorem state_outerLoaded (ok : Block) (d : Digest) : (outerLoaded ok d).state = compress iv ok := by
  rw [outerLoaded_eq, state_absorbAll_created_block ok (by simp)]

theorem getElem_buffer_outerLoaded (ok : Block) (d : Digest) {i : Nat} (h : i < 32) :
    (outerLoaded ok d).buffer[i] = d[i] := by
  have hlen : (ok.toList ++ d.toList).length = 96 := by simp
  have hbuf := getElem_buffer_absorbAll_created (ok.toList ++ d.toList) i (by omega) (by omega)
  rw [hlen, List.getD_append_right _ _ _ _ (by simp)] at hbuf
  simpa [outerLoaded_eq, h] using hbuf

/-- The length bytes of the outer block: 768 is 0x300. -/
theorem getElem_bytes64_768 : ∀ k (h : k < 8), (bytes64 768)[k] = if k = 6 then 0x03 else 0 := by decide

theorem getElem_lastBlock_outerLoaded (ok : Block) (d : Digest) (i : Nat) (h : i < 64) :
    (lastBlock (outerLoaded ok d))[i] =
      if g : i < 32 then d[i] else if i = 32 then 0x80 else if i = 62 then 0x03 else 0 := by
  have hfill := fill_outerLoaded ok d
  obtain hlt | hge := Nat.lt_or_ge i 56
  · rw [getElem_lastBlock_of_room (by omega) hlt, hfill]
    obtain hd | rfl | hz := Nat.lt_trichotomy i 32
    · rw [if_pos hd, dif_pos hd, getElem_buffer_outerLoaded ok d hd]
    · rfl
    · rw [if_neg (by omega), if_neg (by omega), dif_neg (by omega), if_neg (by omega), if_neg (by omega)]
  · obtain ⟨k, rfl⟩ := Nat.exists_eq_add_of_le hge
    have hk : k < 8 := by omega
    have hpos : 56 + k = 62 ↔ k = 6 := by omega
    simp only [getElem_lastBlock_length _ hk, total_outerLoaded, getElem_bytes64_768 k hk, hpos]
    rw [dif_neg (show ¬ 56 + k < 32 by omega), if_neg (show ¬ 56 + k = 32 by omega)]

/-- MacFinal by the fields it writes (R116). -/
theorem macFinal_eq (m : HmacUnit) :
    macFinal m =
      { m with inner := primedContext m.ik, outer := (finalize (outerLoaded m.ok (finalize m.inner).2)).1,
               md := (finalize (outerLoaded m.ok (finalize m.inner).2)).2, mdv := true, meq := false } := rfl

/-! ### The commands of the M group in correct use (R117 to R123) -/

@[simp] theorem setM_setM (s : State) (m m' : HmacUnit) : setM (setM s m) m' = setM s m' := rfl

theorem setM_self (s : State) : setM s s.m = s := rfl

theorem exec_kbegin {s : State} (hf : s.fcode = .none) :
    exec .kbegin s = .next (setM s { s.m with
      mphase := .keyload, inner := created, ik := zeroKeyPad ipad, ok := zeroKeyPad opad, mdv := false,
      meq := false }) :=
  exec_of_correctUse hf rfl

theorem exec_kbyte_of_room {s : State} (hf : s.fcode = .none) (hload : s.m.mphase = .keyload)
    (hroom : canAbsorb s.m.inner = true) (b : Byte) :
    exec (.kbyte b) s = .next (setM s { loadKeyByte s.m b with inner := absorb s.m.inner b }) :=
  exec_of_correctUse hf (by simp [correctUse, hload, hroom])

theorem exec_kend_of_keyload {s : State} (hf : s.fcode = .none) (hload : s.m.mphase = .keyload) :
    exec .kend s = .next (setM s { s.m with
      ik := (finishPads s.m).ik, ok := (finishPads s.m).ok, inner := primedContext (finishPads s.m).ik,
      mphase := .ready }) := by
  have h : exec .kend s = .next (setM s { prime (finishPads s.m) with mphase := .ready }) :=
    exec_of_correctUse hf (by simp [correctUse, hload])
  rwa [prime_finishPads] at h

theorem exec_mfinal_of_ready {s : State} (hf : s.fcode = .none) (hready : s.m.mphase = .ready) :
    exec .mfinal s = .next (setM s (macFinal s.m)) :=
  exec_of_correctUse hf (by simp [correctUse, hready])

theorem exec_mreset_of_ready {s : State} (hf : s.fcode = .none) (hready : s.m.mphase = .ready) :
    exec .mreset s = .next (setM s (prime s.m)) :=
  exec_of_correctUse hf (by simp [correctUse, hready])

/-- KEND, MFINAL, MMATCH and MRESET outside their phase (R137). -/
theorem exec_of_wrong_phase {i : Instr} {p : Phase} {s : State} {w : CmdWord} (hf : s.fcode = .none)
    (hc : correctUse i s = (s.m.mphase == p)) (hcode : faultOf i s = if correctUse i s then .none else .mSeq)
    (hp : s.m.mphase ≠ p) (hw : encode i = w) : exec i s = .next { s with fcode := .mSeq, fcmd := w } := by
  have hmisuse : correctUse i s = false := by simpa [hc] using hp
  exact exec_of_misuse hf hmisuse (by simp [hcode, hmisuse]) hw

/-! ### A key stream (R124) -/

/-- The unit while a key is loaded: the key bytes so far in the pads and in the key hasher (R118). -/
def keyLoading (m : HmacUnit) (k : List Byte) : HmacUnit :=
  { m with mphase := .keyload, inner := absorbAll created k, ik := xorPad (blockOf k) ipad,
           ok := xorPad (blockOf k) opad, mdv := false, meq := false }

/-- The unit after KEND: the pads of one block-sized key and no message yet (R27, R124). -/
def keyReady (m : HmacUnit) (key : Block) : HmacUnit :=
  { m with mphase := .ready, inner := primedContext (xorPad key ipad), ik := xorPad key ipad, ok := xorPad key opad,
           mdv := false, meq := false }

theorem keyReady_primed (m : HmacUnit) (key : Block) : (keyReady m key).inner = primedContext (keyReady m key).ik := by
  simp only [keyReady]

theorem exec_kbegin_keyLoading {s : State} (hf : s.fcode = .none) :
    exec .kbegin s = .next (setM s (keyLoading s.m [])) := by
  rw [exec_kbegin hf, zeroKeyPad_eq_xorPad, zeroKeyPad_eq_xorPad]
  rfl

theorem exec_kbyte_keyLoading {s : State} (hf : s.fcode = .none) (m : HmacUnit) {k : List Byte} {b : Byte}
    (hlen : 8 * (k ++ [b]).length < 2 ^ 64) :
    exec (.kbyte b) (setM s (keyLoading m k)) = .next (setM s (keyLoading m (k ++ [b]))) := by
  rw [List.length_append, List.length_singleton] at hlen
  have hcount : 8 * k.length < 2 ^ 64 := by omega
  have hk : Absorbed created k (keyLoading m k).inner := ⟨rfl, by simpa using hcount⟩
  have htotal : (total (keyLoading m k).inner).toNat = 8 * k.length := by simpa using hk.total_eq
  obtain ⟨hik, hok⟩ := loadKeyByte_pads hk rfl rfl b
  have hunit : { loadKeyByte (keyLoading m k) b with inner := absorb (keyLoading m k).inner b } =
      keyLoading m (k ++ [b]) := by
    rw [loadKeyByte_eq] at hik hok ⊢
    simp only [keyLoading, absorbAll_concat] at hik hok ⊢
    rw [hik, hok]
  have hroom : canAbsorb (keyLoading m k).inner = true := canAbsorb_of_lt (by omega)
  rw [exec_kbyte_of_room (s := setM s (keyLoading m k)) hf rfl hroom b, setM_m, hunit, setM_setM]

theorem runCommands_kbytes {s : State} (hf : s.fcode = .none) (m : HmacUnit) (k : List Byte) {loaded : List Byte}
    (hlen : 8 * (loaded ++ k).length < 2 ^ 64) :
    runCommands (k.map .kbyte) (setM s (keyLoading m loaded)) = .next (setM s (keyLoading m (loaded ++ k))) := by
  induction k generalizing loaded with
  | nil => simp
  | cons b k ih =>
    rw [List.append_cons] at hlen ⊢
    have hb : 8 * (loaded ++ [b]).length < 2 ^ 64 := by
      rw [List.length_append] at hlen
      omega
    rw [List.map_cons, runCommands_cons (exec_kbyte_keyLoading hf m hb)]
    exact ih hlen

theorem exec_kend_keyLoading {s : State} (hf : s.fcode = .none) (m : HmacUnit) {k : List Byte}
    (hlen : 8 * k.length < 2 ^ 64) :
    exec .kend (setM s (keyLoading m k)) = .next (setM s (keyReady m (keyBlock k))) := by
  have hk : Absorbed created k (keyLoading m k).inner := ⟨rfl, by simpa using hlen⟩
  obtain ⟨hik, hok⟩ := finishPads_pads_keyBlock hk rfl rfl
  rw [exec_kend_of_keyload (s := setM s (keyLoading m k)) hf rfl, setM_m, hik, hok, setM_setM]
  rfl

/-- `hmac.new` from any state without a fault: its only trace of the key is `key'` (R71, R124, R126). -/
theorem runCommands_hmacNew {s : State} (hf : s.fcode = .none) {k : List Byte} (hlen : k.length ≤ 2 ^ 61 - 1) :
    runCommands (hmacNew k) s = .next (setM s (keyReady s.m (keyBlock k))) := by
  have hcount : 8 * k.length < 2 ^ 64 := by omega
  have hbytes := runCommands_kbytes hf s.m k (loaded := []) hcount
  have hload : runCommands ([.kbegin] ++ k.map .kbyte) s = .next (setM s (keyLoading s.m k)) :=
    (runCommands_cons (exec_kbegin_keyLoading hf) _).trans hbytes
  rw [hmacNew, runCommands_append hload, runCommands_cons (exec_kend_keyLoading hf s.m hcount), runCommands_nil]

/-! ### A message under a key (R125, R127) -/

/-- A primed counter has room for every message R120 allows. -/
theorem total_primed_lt {m : HmacUnit} (hprimed : m.inner = primedContext m.ik) {msg : List Byte}
    (hlen : msg.length ≤ 2 ^ 61 - 65) : (total m.inner).toNat + 8 * msg.length < 2 ^ 64 := by
  rw [hprimed, total_primedContext]
  omega

/-- A message and MFINAL on a primed unit in READY publish the MAC and leave the unit ready for the next (R127). -/
theorem runCommands_hmacUpdate_hmacFinalize {s : State} (hf : s.fcode = .none) (hready : s.m.mphase = .ready)
    (hprimed : s.m.inner = primedContext s.m.ik) {msg : List Byte} (hlen : msg.length ≤ 2 ^ 61 - 65) :
    ∃ t, runCommands (hmacUpdate msg ++ hmacFinalize) s = .next t ∧ t.m.md = macWith s.m.ik s.m.ok msg ∧
      t.m.inner = primedContext s.m.ik ∧ t.m.ik = s.m.ik ∧ t.m.ok = s.m.ok ∧ t.m.mphase = .ready ∧
      t.m.mdv = true ∧ t.m.meq = false ∧ t.fcode = .none := by
  have hupdate := runCommands_hmacUpdate hf hready (total_primed_lt hprimed hlen)
  have hfinal := exec_mfinal_of_ready (s := setM s { s.m with inner := absorbAll s.m.inner msg }) hf hready
  have hmd : (macFinal { s.m with inner := absorbAll s.m.inner msg }).md = macWith s.m.ik s.m.ok msg :=
    macFinal_md (by rw [hprimed])
  exact ⟨_, (runCommands_append hupdate _).trans (runCommands_cons hfinal []), hmd, rfl, rfl, rfl, hready, rfl, rfl,
    hf⟩

/-- A message that MRESET drops leaves no trace on a primed unit (R123, R127). -/
theorem runCommands_hmacUpdate_hmacReset {s : State} (hf : s.fcode = .none) (hready : s.m.mphase = .ready)
    (hprimed : s.m.inner = primedContext s.m.ik) {msg : List Byte} (hlen : msg.length ≤ 2 ^ 61 - 65) :
    runCommands (hmacUpdate msg ++ hmacReset) s = .next s := by
  have hupdate := runCommands_hmacUpdate hf hready (total_primed_lt hprimed hlen)
  have hreset := exec_mreset_of_ready (s := setM s { s.m with inner := absorbAll s.m.inner msg }) hf hready
  have hprime : prime { s.m with inner := absorbAll s.m.inner msg } = s.m := prime_of_primed hprimed
  rw [setM_m, hprime, setM_setM, setM_self] at hreset
  exact (runCommands_append hupdate _).trans (runCommands_cons hreset [])

/-! ### The obligations -/

/-- Settles O40: the fault outside READY, MacFinal by its fields, and the MAC of a counted message. -/
theorem mfinalMeaning : Obligations.MfinalMeaning := by
  unfold Obligations.MfinalMeaning
  intro s hf
  refine ⟨rfl, fun hp => exec_of_wrong_phase hf rfl rfl hp rfl, fun hp => ?_⟩
  simp only [← outerLoaded_eq]
  exact ⟨exec_mfinal_of_ready hf hp, fun msg _ hmsg => macFinal_md (hmsg.trans (absorbAll_append _ _ _))⟩

/-- Settles O43: the pad is one whole block absorbed into a created context. -/
theorem primingTransformsThePadOnce : Obligations.PrimingTransformsThePadOnce := by
  unfold Obligations.PrimingTransformsThePadOnce
  intro m
  refine ⟨rfl, total_primedContext m.ik, ?_, ?_, buffer_absorbAll_created_block m.ik⟩
  · rw [prime_inner, primedContext, fill_absorbAll_created, Vector.length_toList]
  · have h := state_absorbAll_created_block m.ik (ys := []) (by decide)
    rwa [List.append_nil] at h

/-- Settles O44: the outer context is one whole block and 32 bytes, so Finalize has room in the second block. -/
theorem macFinalOuterPass : Obligations.MacFinalOuterPass := by
  unfold Obligations.MacFinalOuterPass
  intro m
  have hroom : fill (outerLoaded m.ok (finalize m.inner).2) ≤ 55 := by
    rw [fill_outerLoaded]
    decide
  rw [macFinal_eq]
  refine ⟨?_, rfl, ?_, getElem_lastBlock_outerLoaded _ _, rfl, rfl, rfl, rfl, rfl, rfl⟩
  · rw [total_finalize, total_outerLoaded]
    rfl
  · rw [finalize_state, finalWords, padStart_of_room hroom, state_outerLoaded, finalize_buffer]

/-- Settles O53: the key stream leaves the pads of `key'`, read byte by byte. -/
theorem keyStreamDerivesThePads : Obligations.KeyStreamDerivesThePads := by
  unfold Obligations.KeyStreamDerivesThePads
  intro s k hf hlen
  exact ⟨_, runCommands_hmacNew hf hlen, fun i h => ⟨getElem_xorPad _ _ _ h, getElem_xorPad _ _ _ h⟩,
    keyReady_primed _ _, rfl, rfl, rfl, (setM_fcode _ _).trans hf, setM_h _ _, setM_exp _ _⟩

/-- Settles O54: the key stream primes the unit, and the message stream publishes the MAC under its pads. -/
theorem hmacStreamComputesHmac : Obligations.HmacStreamComputesHmac := by
  unfold Obligations.HmacStreamComputesHmac
  intro s k m hf hk hm
  have hfree : (setM s (keyReady s.m (keyBlock k))).fcode = .none := (setM_fcode _ _).trans hf
  obtain ⟨t, hrun, hmd, -, -, -, hphase, hmdv, hmeq, htf⟩ :=
    runCommands_hmacUpdate_hmacFinalize hfree rfl (keyReady_primed _ _) hm
  rw [List.append_assoc, runCommands_append (runCommands_hmacNew hf hk)]
  exact ⟨t, hrun, hmd, hmdv, hmeq, hphase, htf⟩

/-- Settles O55: the state after the key stream depends on `key'` alone; zeros behind a short key and the digest of a
long one are the same block. -/
theorem equivalentKeysGiveTheSameMac : Obligations.EquivalentKeysGiveTheSameMac := by
  unfold Obligations.EquivalentKeysGiveTheSameMac
  refine ⟨fun s k k' m hf hk hk' _ heq => ?_, fun k z h => ?_, fun k h => ?_⟩
  · rw [List.append_assoc, List.append_assoc, runCommands_append (runCommands_hmacNew hf hk),
      runCommands_append (runCommands_hmacNew hf hk'), heq]
  · rw [keyBlock_of_short (by simpa using h), keyBlock_of_short (by omega), blockOf_append_zeros]
  · rw [keyBlock_of_long h, keyBlock_digest]

/-- Settles O56: a dropped message leaves the state, and each finished one leaves the unit primed for the next. -/
theorem reuseUnderOneKey : Obligations.ReuseUnderOneKey := by
  unfold Obligations.ReuseUnderOneKey
  intro s m1 m2 z hf hready hprimed h1 h2 hz
  obtain ⟨t1, hrun1, hmd1, hinner1, hik1, hok1, hready1, -, -, hf1⟩ :=
    runCommands_hmacUpdate_hmacFinalize hf hready hprimed h1
  obtain ⟨t2, hrun2, hmd2, hinner2, hik2, hok2, hready2, hmdv2, -, hf2⟩ :=
    runCommands_hmacUpdate_hmacFinalize hf1 hready1 (hik1 ▸ hinner1) h2
  rw [hik1] at hmd2 hinner2 hik2
  rw [hok1] at hmd2 hok2
  exact ⟨runCommands_hmacUpdate_hmacReset hf hready hprimed hz, t1, t2, hrun1, hmd1, hinner1, hrun2, hmd2, hinner2,
    hik2, hok2, hready2, hmdv2, hf2⟩

/-- Settles O36: KBEGIN checks nothing. -/
theorem kbeginMeaning : Obligations.KbeginMeaning := by
  unfold Obligations.KbeginMeaning
  exact fun s hf => ⟨rfl, exec_kbegin hf⟩

/-- Settles O37: the two faults in the order of the checks, and the stored pad bytes. -/
theorem kbyteMeaning : Obligations.KbyteMeaning := by
  unfold Obligations.KbyteMeaning
  intro b s hf
  have hw : encode (.kbyte b) = 0x7000 + b.setWidth 16 := wordOf_eq_add 0x7 b
  refine ⟨hw, fun hp => ?_, fun hp hr => ?_, fun hp hr =>
    ⟨putByte s.m.ik ((total s.m.inner).toNat / 8) (b ^^^ ipad),
      putByte s.m.ok ((total s.m.inner).toNat / 8) (b ^^^ opad), ?_, fun i h => ⟨?_, ?_⟩⟩⟩
  · exact exec_of_misuse hf (by simp [correctUse, hp]) (by simp [faultOf, correctUse, hp]) hw
  · exact exec_of_misuse hf (by simp [correctUse, hr]) (by simp [faultOf, correctUse, hp, hr]) hw
  · rw [exec_kbyte_of_room hf hp hr, loadKeyByte_eq]
    rfl
  · simp only [getElem_putByte _ _ _ _ h, eq_comm]
    rfl
  · simp only [getElem_putByte _ _ _ _ h, eq_comm]
    rfl

/-- Settles O38: the pads as they came at 512 bits or less, and those of the digest above. -/
theorem kendMeaning : Obligations.KendMeaning := by
  unfold Obligations.KendMeaning
  intro s hf
  refine ⟨rfl, fun hp => exec_of_wrong_phase hf rfl rfl hp rfl, fun hp =>
    ⟨(finishPads s.m).ik, (finishPads s.m).ok, exec_kend_of_keyload hf hp, fun h => ?_, fun h i hi => ?_⟩⟩
  · rw [finishPads_of_short h]
    exact ⟨rfl, rfl⟩
  · rw [finishPads_of_long h]
    exact ⟨getElem_digestPad _ _ _ hi, getElem_digestPad _ _ _ hi⟩

/-- Settles O39: the two faults in the order of the checks, and the effect. -/
theorem mbyteMeaning : Obligations.MbyteMeaning := by
  unfold Obligations.MbyteMeaning
  intro b s hf
  have hw : encode (.mbyte b) = 0x9000 + b.setWidth 16 := wordOf_eq_add 0x9 b
  refine ⟨hw, fun hp => ?_, fun hp hr => ?_, fun hp hr => ?_⟩
  · exact exec_of_misuse hf (by simp [correctUse, hp]) (by simp [faultOf, correctUse, hp]) hw
  · exact exec_of_misuse hf (by simp [correctUse, hr]) (by simp [faultOf, correctUse, hp, hr]) hw
  · exact exec_mbyte_of_room hf hp hr b

/-- Settles O41: as MFINAL, with the comparison as a decision over the 32 bytes. -/
theorem mmatchMeaning : Obligations.MmatchMeaning := by
  unfold Obligations.MmatchMeaning
  intro s hf
  refine ⟨rfl, fun hp => exec_of_wrong_phase hf rfl rfl hp rfl, fun hp => ?_⟩
  simp only [← outerLoaded_eq]
  rw [← digestEq_eq_decide]
  exact exec_mmatch_of_ready hf hp

/-- Settles O42: priming is the whole effect, and nothing on a unit that is primed. -/
theorem mresetMeaning : Obligations.MresetMeaning := by
  unfold Obligations.MresetMeaning
  intro s hf
  refine ⟨rfl, fun hp => exec_of_wrong_phase hf rfl rfl hp rfl, exec_mreset_of_ready hf, fun hp hprimed => ?_⟩
  rw [exec_mreset_of_ready hf hp, prime_of_primed hprimed, setM_self]

end Sys2Proof.Machine
end

section
/-! PROOFS of the exception family (spec/60_exceptions.md): everything a step can do (R148, R149), the illegal words
(R135), the fault lock (R133), a command in correct use and out of place (R130 to R132, R146), and the ways out of a
fault and of the phases KEYLOAD and READY (R140). -/

namespace Sys2Proof.Machine

/-! ### Everything a step can do (R133, R135, R148, R149) -/

/-- A step is a reset, a cycle that only passes, or, with no fault recorded, an accepted word: an illegal one with its
fault, or a command. -/
theorem step_cases {s t : State} (h : step s = .next t) :
    (∃ c rest, s.port = c :: rest ∧ c.rst = true ∧ t = resetEngine (setPort s rest)) ∨
      t = setPort s s.port.tail ∨
      (s.fcode = .none ∧ ∃ c rest, s.port = c :: rest ∧ accepts c = true ∧
        (((∃ why, decode c.cmd = .illegal why) ∧ t = raiseFault .illegal c.cmd (setPort s rest)) ∨
          ∃ i, decode c.cmd = .cmd i ∧ exec i (setPort s rest) = .next t)) := by
  obtain ⟨hp, hf⟩ | ⟨c, rest, hp, hr, hf⟩ | ⟨c, rest, hp, -, -, hf⟩ | ⟨c, rest, hp, -, ha, hf⟩ := fetch_cases s
  · cases (step_of_settled hf).symm.trans h
    exact .inr (.inl (by rw [hp, List.tail_nil, ← hp, setPort_self]))
  · cases (step_of_settled hf).symm.trans h
    exact .inl ⟨c, rest, hp, hr, rfl⟩
  · cases (step_of_settled hf).symm.trans h
    exact .inr (.inl (by rw [hp, List.tail_cons]))
  · obtain ⟨-, hw⟩ | ⟨hfree, hill, hw⟩ | ⟨hfree, i, hi, hw⟩ := receiveWord_cases c.cmd (setPort s rest)
    · cases (step_of_settled (hf.trans hw)).symm.trans h
      exact .inr (.inl (by rw [hp, List.tail_cons]))
    · cases (step_of_settled (hf.trans hw)).symm.trans h
      exact .inr (.inr ⟨hfree, c, rest, hp, ha, .inl ⟨hill, rfl⟩⟩)
    · exact .inr (.inr ⟨hfree, c, rest, hp, ha, .inr ⟨i, hi, (step_of_run (hf.trans hw)).symm.trans h⟩⟩)

/-- Under the lock a cycle without reset only passes (R133). -/
theorem step_of_locked {s : State} {c : PortCycle} {rest : List PortCycle} (hl : s.fcode ≠ .none)
    (hp : s.port = c :: rest) (hr : c.rst = false) : step s = .next (setPort s rest) := by
  obtain ⟨t, ht⟩ := step_completes s
  obtain ⟨c', rest', hp', hr', -⟩ | rfl | ⟨hfree, -⟩ := step_cases ht
  · cases hp.symm.trans hp'
    simp [hr] at hr'
  · rw [ht, hp, List.tail_cons]
  · exact absurd hfree hl

/-! ### The illegal words (R67, R135) -/

theorem decode_illegal_of_not_wordLegal {w : CmdWord} (h : WellFormed.wordLegal w = false) :
    ∃ why, decode w = .illegal why := by
  cases hd : decode w with
  | illegal why => exact ⟨why, rfl⟩
  | cmd i =>
    have hlegal := (wordLegal_iff_exists_decode w).mpr ⟨i, hd⟩
    simp [h] at hlegal

theorem step_of_accepts_illegal {s : State} {c : PortCycle} {rest : List PortCycle} (hp : s.port = c :: rest)
    (ha : accepts c = true) (hf : s.fcode = .none) (hw : WellFormed.wordLegal c.cmd = false) :
    step s = .next (raiseFault .illegal c.cmd (setPort s rest)) := by
  obtain ⟨why, hwhy⟩ := decode_illegal_of_not_wordLegal hw
  obtain ⟨hl, -⟩ | ⟨-, -, hr⟩ | ⟨-, i, hi, -⟩ := receiveWord_cases c.cmd (setPort s rest)
  · exact absurd hf hl
  · exact step_of_settled ((fetch_of_accepts hp ha).trans hr)
  · simp [hwhy] at hi

/-! ### The phases a command finds and leaves (R131, R146) -/

theorem correctUse_eq_false_of_faultOf {i : Instr} {s : State} (h : faultOf i s ≠ .none) : correctUse i s = false := by
  by_contra hc
  exact h (if_pos (Bool.eq_true_of_not_eq_false hc))

/-- No command's effect leads back to IDLE (R146). -/
theorem hmacEffect_mphase_ne_idle {m : HmacUnit} (hp : m.mphase ≠ .idle) (e : Digest) (i : Instr) :
    (hmacEffect e m i).mphase ≠ .idle := by
  cases i with
  | kbegin | kend => simp [hmacEffect]
  | kbyte | mbyte | mfinal | mmatch | mreset => simpa [hmacEffect] using hp
  | hinit | hbyte | hfinal | hmatch | xbyte => exact hp

theorem exec_mphase_ne_idle {i : Instr} {s t : State} (h : exec i s = .next t) (hp : s.m.mphase ≠ .idle) :
    t.m.mphase ≠ .idle := by
  obtain ⟨-, rfl⟩ | ⟨-, -, rfl⟩ | ⟨-, -, rfl⟩ := exec_cases h
  · exact hp
  · exact hmacEffect_mphase_ne_idle hp _ i
  · exact hp

/-! ### The obligations -/

/-- Settles O6: the lock at the port, in front of one command, and along a stream. -/
theorem faultLockDiscardsEveryWord : Obligations.FaultLockDiscardsEveryWord := by
  unfold Obligations.FaultLockDiscardsEveryWord
  exact fun s hl => ⟨fun c rest hp hr => step_of_locked hl hp hr, exec_of_locked hl, runCommands_of_locked hl⟩

/-- Settles O7: a command with a fault in the table is out of place, and takes that fault with its own word. -/
theorem faultEntryWritesOnlyFaultRegisters : Obligations.FaultEntryWritesOnlyFaultRegisters := by
  unfold Obligations.FaultEntryWritesOnlyFaultRegisters
  exact fun i s hf hfault => exec_of_misuse hf (correctUse_eq_false_of_faultOf hfault) rfl rfl

/-- Settles O8: the effect writes neither the fault registers nor the input. -/
theorem correctUseRaisesNothing : Obligations.CorrectUseRaisesNothing := by
  unfold Obligations.CorrectUseRaisesNothing
  exact fun i s hf hc => ⟨effect i s, exec_of_correctUse hf hc, hf, rfl, rfl⟩

/-- Settles O47: a command writes its phase or keeps the one it was found in, which HBYTE, KBYTE, MBYTE, MFINAL, MMATCH
and MRESET check. -/
theorem phaseTransitions : Obligations.PhaseTransitions := by
  unfold Obligations.PhaseTransitions
  intro i s hf hc
  refine ⟨effect i s, exec_of_correctUse hf hc, hf, ?_, ?_⟩
  · cases i with
    | hbyte b =>
      obtain ⟨hopen, -⟩ : s.h.hused = false ∧ canAbsorb s.h.ctx = true := by simpa [correctUse] using hc
      exact hopen
    | hinit | hfinal | hmatch | xbyte | kbegin | kbyte | kend | mbyte | mfinal | mmatch | mreset => rfl
  · cases i with
    | kbyte b =>
      obtain ⟨hload, -⟩ : s.m.mphase = .keyload ∧ canAbsorb s.m.inner = true := by simpa [correctUse] using hc
      simpa [hmacEffect] using hload
    | mbyte b =>
      obtain ⟨hready, -⟩ : s.m.mphase = .ready ∧ canAbsorb s.m.inner = true := by simpa [correctUse] using hc
      exact hready
    | mfinal | mmatch | mreset =>
      have hready : s.m.mphase = .ready := by simpa [correctUse] using hc
      exact hready
    | kbegin | kend | hinit | hbyte | hfinal | hmatch | xbyte => rfl

/-- Settles O51: of all a step can do, the lock keeps the fault and no command leads to IDLE, so a reset is left. -/
theorem onlyResetLeavesFaultOrReturnsToIdle : Obligations.OnlyResetLeavesFaultOrReturnsToIdle := by
  unfold Obligations.OnlyResetLeavesFaultOrReturnsToIdle
  intro s t hstep hleft
  obtain ⟨c, rest, hp, hr, -⟩ | rfl | ⟨hfree, c, rest, -, -, hword⟩ := step_cases hstep
  · exact ⟨c, rest, hp, hr⟩
  · obtain ⟨hs, ht⟩ | ⟨hs, ht⟩ := hleft <;> exact absurd ht hs
  · obtain ⟨hs, -⟩ | ⟨hs, ht⟩ := hleft
    · exact absurd hfree hs
    · obtain ⟨-, rfl⟩ | ⟨i, -, hx⟩ := hword
      · exact absurd ht hs
      · exact absurd ht (exec_mphase_ne_idle hx hs)

/-- Settles O5: an illegal word is no command, so the port raises its fault; R135's words are presented at reset. -/
theorem illegalWordRaisesIllegal : Obligations.IllegalWordRaisesIllegal := by
  unfold Obligations.IllegalWordRaisesIllegal
  refine ⟨fun s c rest hp hr hv hy hf hw => step_of_accepts_illegal hp ((accepts_iff c).mpr ⟨hv, hy, hr⟩) hf hw,
    fun w hw => ?_⟩
  have hillegal : WellFormed.wordLegal (BitVec.ofNat 16 (w % 2 ^ 16)) = false := by
    revert w
    decide
  have hstatus : status (raiseFault .illegal 0 State.reset) = 0x0100 := by decide
  have hcmd : BitVec.ofNat 16 (w % 2 ^ 16) = BitVec.ofNat 16 w := BitVec.eq_of_toNat_eq (by simp)
  exact ⟨_, step_of_accepts_illegal (s := State.reset.withFetchWord 16 w) rfl rfl rfl hillegal, hstatus, hcmd⟩

end Sys2Proof.Machine
end

section
/-! PROOFS of the family of reset and hazards (spec/70_reset_and_hazards.md): the cycles that deliver no word (R148,
R149), and a stream presented at the port as the run of its commands (R149, R157). -/

namespace Sys2Proof.Machine

/-! ### The cycles that deliver no word (R128, R148, R149) -/

theorem step_of_rst {s : State} {c : PortCycle} {rest : List PortCycle} (hp : s.port = c :: rest)
    (hr : c.rst = true) : step s = .next (setPort State.reset rest) :=
  step_of_settled (t := resetEngine (setPort s rest)) (by simp [fetch, hp, hr])

theorem step_of_not_accepts {s : State} {c : PortCycle} {rest : List PortCycle} (hp : s.port = c :: rest)
    (hr : c.rst = false) (ha : accepts c = false) : step s = .next (setPort s rest) :=
  step_of_settled (by simp [fetch, hp, hr, ha])

theorem step_of_port_nil {s : State} (hp : s.port = []) : step s = .next s :=
  step_of_settled (by simp [fetch, hp])

theorem accepts_eq_false {c : PortCycle} (h : c.valid = false ∨ c.ready = false) : accepts c = false := by
  obtain h | h := h <;> simp [accepts, h]

/-! ### A command does not see the input still to come (R149) -/

/-- A command run with another input still to come does the same and leaves that input. -/
theorem exec_setPort {i : Instr} {s t : State} (h : exec i s = .next t) (p : List PortCycle) :
    exec i (setPort s p) = .next (setPort t p) := by
  obtain ⟨hl, rfl⟩ | ⟨hf, hc, rfl⟩ | ⟨hf, hc, rfl⟩ := exec_cases h
  · exact exec_of_locked (s := setPort t p) hl i
  · exact exec_of_correctUse (s := setPort s p) hf hc
  · exact exec_of_misuse (s := setPort s p) hf hc rfl rfl

/-! ### A stream presented at the port (R149, R157) -/

/-- The first command of a presented stream runs, and the rest of the stream is still to come. -/
theorem step_presented_cons {i : Instr} {s t : State} (h : exec i s = .next t) (is : List Instr) :
    step (setPort s (presented (i :: is))) = .next (setPort t (presented is)) :=
  calc step (setPort s (presented (i :: is)))
    _ = exec i (setPort s (presented is)) :=
      step_of_accepts_decode (c := acceptedCycle (encode i)) rfl rfl (decode_encode i)
    _ = .next (setPort t (presented is)) := exec_setPort h _

/-- A run whose first step answers a next state goes on from it. -/
theorem run_succ_of_step {M : Host.Core} {s t : M.State} (h : M.step s = .next t) (k : Nat) :
    M.run (k + 1) s = M.run k t := by
  rw [Host.Core.run, h]

theorem run_presented (is : List Instr) (s : State) :
    Host.Core.run core is.length (setPort s (presented is)) = runCommands is (setPort s []) := by
  induction is generalizing s with
  | nil => rfl
  | cons i is ih =>
    obtain ⟨t, ht, -⟩ := exec_completes i s
    have hport := run_succ_of_step (M := core) (step_presented_cons ht is) is.length
    have hcommands := runCommands_cons (exec_setPort ht []) is
    exact hport.trans ((ih t).trans hcommands.symm)

/-! ### The obligations -/

/-- Settles O58: the induction over the stream, one port cycle and one command at a time. -/
theorem presentedStreamRunsAsCommands : Obligations.PresentedStreamRunsAsCommands := by
  unfold Obligations.PresentedStreamRunsAsCommands
  exact run_presented

/-- Settles O2: the port settles a reset cycle before it looks at valid, ready or the word. -/
theorem resetCycleRestoresEngine : Obligations.ResetCycleRestoresEngine := by
  unfold Obligations.ResetCycleRestoresEngine
  exact fun s c rest hp hr => step_of_rst hp hr

/-- Settles O3: a cycle without a handshake is only consumed, and with no cycle to come nothing is. -/
theorem unacceptedCycleChangesNothing : Obligations.UnacceptedCycleChangesNothing := by
  unfold Obligations.UnacceptedCycleChangesNothing
  exact ⟨fun s c rest hp hr hlow => step_of_not_accepts hp hr (accepts_eq_false hlow), fun s => step_of_port_nil⟩

end Sys2Proof.Machine
end
